-- ==== Sys2Proof/Word.lean ====
section
/-! DEFINITION. The machine's words: an 8-bit byte (V, DT, ST, a memory cell) and a 16-bit word (opcode, PC, I, a stack
entry, KEY), and one framebuffer row of 64 pixels. -/

namespace Sys2Proof

/-- A byte: a general register, a timer, a memory cell (10_state.md R20, R33, R34; 20_memory.md R50). -/
abbrev Byte := BitVec 8

/-- A 16-bit word: an opcode, PC, I, a return address (10_state.md R24, R26, R30; 30_encoding.md R70). -/
abbrev Word := BitVec 16

/-- The index of a general register V0..VF (10_state.md R20), or of a key 0x0..0xF (R42). -/
abbrev RegIdx := Fin 16

/-- One row of the framebuffer: bit c is the pixel of column c (the signal fb[31:0][63:0] of 10_state.md R45). -/
abbrev PixelRow := BitVec 64

end Sys2Proof
end

