-- ==== Sys2Proof/Config.lean ====
section
/-! DEFINITION. The open parameters of 00_scope.md R8, and the free values the spec calls draws (constants without a body,
so that no proof can see what they are). -/

namespace Sys2Proof

/-- P_FONT: 16 glyphs of 5 bytes each (20_memory.md R55, decision D20). -/
abbrev Font := Vector (Vector Byte 5) 16

/-- P_RESET_REGS: what V0..VF and I hold at reset (70_reset_and_hazards.md R246, decision D4). -/
inductive ResetRegs where
  | zero
  | arbitrary
  deriving DecidableEq, Repr

/-- P_VF_ORDER: how the two writes of 8xy5, 8xy6, 8xy7 and 8xyE combine when VF is an operand (43_alu.md R140,
decision D10). -/
inductive VfOrder where
  | latchedTableOrder
  | latchedFlagLast
  | sequentialReread
  deriving DecidableEq, Repr

/-- P_ODD_PC: what a fetch at an odd PC does (40_cycle.md R94, decision D7). -/
inductive OddPc where
  | fetch
  | fault
  deriving DecidableEq, Repr

/-- P_LOW_WRITE: what a store below 0x200 does (20_memory.md R53, decision D8). -/
inductive LowWrite where
  | fault
  | write
  | ignore
  deriving DecidableEq, Repr

/-- P_DECODE_5_9: whether 5xyN and 9xyN check N (30_encoding.md R76, decision D18). -/
inductive Decode59 where
  | highNibble
  | strict
  deriving DecidableEq, Repr

/-- P_LDST_I: whether Fx55 and Fx65 advance I (44_index_memory.md R176, decision D16). -/
inductive LdstI where
  | unchanged
  | increment
  deriving DecidableEq, Repr

/-- The seven open parameters of 00_scope.md R8. They are fixed for a machine: State holds them so that claims can be
made for every value, and no step changes them. -/
structure Params where
  font      : Font
  resetRegs : ResetRegs
  vfOrder   : VfOrder
  oddPc     : OddPc
  lowWrite  : LowWrite
  decode59  : Decode59
  ldstI     : LdstI
  deriving DecidableEq, Repr

namespace Config

/-- The byte of the n-th draw made by RND (10_state.md R43, decision D23): a free value, any of 0..255. Log 6. -/
opaque randomByte : Nat → Byte

/-- Which of several keys newly pressed in one sample the n-th draw takes (45_keys_timers.md R195, decision D15):
a free value, used modulo the number of keys. Log 7. -/
opaque keyChoice : Nat → Nat

/-- V[k] at reset under P_RESET_REGS = `arbitrary` (70_reset_and_hazards.md R246): a free value. Log 3. -/
opaque resetV : Nat → Byte

/-- I at reset under P_RESET_REGS = `arbitrary`: a free value 0..0xFFF (70_reset_and_hazards.md R246). Log 3. -/
opaque resetI : BitVec 12

end Config

end Sys2Proof
end

