-- ==== Sys2Proof/Machine/Defaults.lean ====
section
/-! DEFINITION. The spec's default value of every open parameter (00_scope.md R8), the conventional font among them. -/

namespace Sys2Proof.Machine

/-- The conventional CHIP-8 font, the default of P_FONT (20_memory.md R55, decision D20). PRESUMED: the spec supplies it
from general knowledge. Log 12. -/
def defaultFont : Font :=
  #v[#v[0xF0, 0x90, 0x90, 0x90, 0xF0],
     #v[0x20, 0x60, 0x20, 0x20, 0x70],
     #v[0xF0, 0x10, 0xF0, 0x80, 0xF0],
     #v[0xF0, 0x10, 0xF0, 0x10, 0xF0],
     #v[0x90, 0x90, 0xF0, 0x10, 0x10],
     #v[0xF0, 0x80, 0xF0, 0x10, 0xF0],
     #v[0xF0, 0x80, 0xF0, 0x90, 0xF0],
     #v[0xF0, 0x10, 0x20, 0x40, 0x40],
     #v[0xF0, 0x90, 0xF0, 0x90, 0xF0],
     #v[0xF0, 0x90, 0xF0, 0x10, 0xF0],
     #v[0xF0, 0x90, 0xF0, 0x90, 0x90],
     #v[0xE0, 0x90, 0xE0, 0x90, 0xE0],
     #v[0xF0, 0x80, 0x80, 0x80, 0xF0],
     #v[0xE0, 0x90, 0x90, 0x90, 0xE0],
     #v[0xF0, 0x80, 0xF0, 0x80, 0xF0],
     #v[0xF0, 0x80, 0xF0, 0x80, 0x80]]

/-- The defaults of 00_scope.md R8. DESIGN CHOICE: State.reset takes them. Log 2. -/
def defaultParams : Params where
  font := defaultFont
  resetRegs := .zero
  vfOrder := .latchedTableOrder
  oddPc := .fetch
  lowWrite := .fault
  decode59 := .highNibble
  ldstI := .unchanged

end Sys2Proof.Machine
end

