-- ==== Sys2Proof/Machine/State.lean ====
section
/-! DEFINITION. The machine's state as plain data (10_state.md, 70_reset_and_hazards.md), the reasons a step can stop, and
the state after reset. -/

namespace Sys2Proof.Machine

/-- A fatal cause with the value 60_exceptions.md R210 says it records. UnknownOpcode (code 4) is not fatal and is recorded
in LOG instead. -/
inductive Cause where
  /-- Code 1, raised by CALL with SP = 16: the address of the CALL (R211). -/
  | stackOverflow (addr : Word)
  /-- Code 2, raised by RET with SP = 0: the address of the RET (R212). -/
  | stackUnderflow (addr : Word)
  /-- Code 3, raised by the program load: the image's length (R213). -/
  | invalidProgram (len : Nat)
  /-- Code 5, raised by SKP and SKNP with Vx > 15: the instruction's address and Vx (R215). -/
  | keyIndexOutOfRange (addr : Word) (vx : Byte)
  /-- Code 6, raised by LD B and LD [I] under P_LOW_WRITE = `fault`: the instruction's address and the first offending
  byte address (R216). -/
  | protectedWrite (addr : Word) (byteAddr : Nat)
  /-- Code 7, raised by the fetch under P_ODD_PC = `fault`: PC (R217). -/
  | misalignedFetch (pc : Word)
  deriving DecidableEq, Repr

/-- A diagnostic record of LOG: the address of an Unknown opcode and the opcode (10_state.md R41). -/
structure LogRecord where
  addr   : Word
  opcode : Word
  deriving DecidableEq, Repr

/-- MODE, the state of the Cycle Driver (10_state.md R38). -/
inductive Mode where
  /-- The next core step fetches an instruction. -/
  | running
  /-- Fx0A is suspended, waiting to write a key index into V[x]; `prev` is the keypad sample taken last (R195). -/
  | waitingForKey (x : RegIdx) (prev : Word)
  /-- A fatal fault was taken (60_exceptions.md R218). Final. -/
  | halted (cause : Cause)
  /-- The host cancelled the run (40_cycle.md R103). Final. -/
  | terminated
  deriving DecidableEq, Repr

/-- One move of one of the four agents of 40_cycle.md R90. The model's own type: State's `schedule` lists the moves still
to come (log 1). -/
inductive Move where
  /-- A core step: one cycle, or one keypad sample while waiting for a key (R91, R101). -/
  | core
  /-- A 60 Hz timer tick (R99). -/
  | tick
  /-- The keypad collaborator replaces KEY (R102). -/
  | keys (now : Word)
  /-- The host cancels the run (R103). -/
  | cancel
  deriving DecidableEq, Repr

/-- The machine's state: every piece of state of 10_state.md section 1, the KEY input, the open parameters of
00_scope.md R8, and two fields of the model's own (`draws`, `schedule`). -/
structure State where
  /-- V0..VF (R20). -/
  v        : Vector Byte 16
  /-- The index register (R24). -/
  i        : Word
  /-- The program counter (R26). -/
  pc       : Word
  /-- The stack depth, 0..16 (R29). -/
  sp       : Fin 17
  /-- The call stack (R30). -/
  stack    : Vector Word 16
  /-- The delay timer (R33). -/
  dt       : Byte
  /-- The sound timer (R34). -/
  st       : Byte
  /-- The memory cells that differ from the reset contents, addresses strictly rising (20_memory.md R50, R241). -/
  mem      : List Host.Cell
  /-- The framebuffer: row r, and bit c of it for column c (R35). -/
  fb       : Vector PixelRow 32
  /-- The Cycle Driver's mode (R38). -/
  mode     : Mode
  /-- FB_DIRTY (R40). -/
  fbDirty  : Bool
  /-- LOG, oldest record first (R41). -/
  log      : List LogRecord
  /-- The keypad input: bit k is KEY[k] (R42). -/
  key      : Word
  /-- The open parameters; no step changes them (00_scope.md R8; log 2). -/
  params   : Params
  /-- The model's own: how many free values have been drawn (log 6). -/
  draws    : Nat
  /-- The model's own: the agents' moves still to come; when none is listed only the core moves (log 1). -/
  schedule : List Move
  deriving DecidableEq, Repr

/-- Why a step has no next state. Raised by `step` alone, from a final mode. -/
inductive Fault where
  /-- MODE is Halted: no agent steps again and the cause is surfaced to the host (40_cycle.md R104, 60_exceptions.md
  R218). Raised by every step from such a state. Safe: the run stops where the machine stops. -/
  | halted (cause : Cause)
  /-- MODE is Terminated: stuck, no step of any agent follows (40_cycle.md R103). Not an error of the machine. Raised by
  every step from such a state. Safe: the run stops where the machine stops. -/
  | terminated
  deriving DecidableEq, Repr

/-- Why an instruction has no meaning. -/
inductive Refusal where
  /-- An instruction the model gives no meaning. No instruction of this model answers it. Safe. -/
  | notModelled (mnemonic : String)
  deriving DecidableEq, Repr

/-- V0..VF at reset, per P_RESET_REGS (70_reset_and_hazards.md R246). Log 3. -/
def resetRegisters (p : Params) : Vector Byte 16 :=
  match p.resetRegs with
  | .zero => Vector.replicate 16 0
  | .arbitrary => Vector.ofFn fun k => Config.resetV k.val

/-- I at reset, per P_RESET_REGS (R246). Log 3. -/
def resetIndex (p : Params) : Word :=
  match p.resetRegs with
  | .zero => 0
  | .arbitrary => Config.resetI.setWidth 16

/-- The machine right after reset under the parameters `p` (70_reset_and_hazards.md R241 to R248): PC = 0x200, SP = 0,
timers 0, memory at its reset contents (no cell listed), framebuffer clear, MODE Running, FB_DIRTY 0, LOG empty. STACK and
KEY have no reset value in the spec: DESIGN CHOICE 0, logs 4 and 5. -/
def State.resetWith (p : Params) : State where
  v := resetRegisters p
  i := resetIndex p
  pc := 0x200
  sp := 0
  stack := Vector.replicate 16 0
  dt := 0
  st := 0
  mem := []
  fb := Vector.replicate 32 0
  mode := .running
  fbDirty := false
  log := []
  key := 0
  params := p
  draws := 0
  schedule := []

/-- The machine right after reset, before a program is loaded, under the spec's default parameters. -/
def State.reset : State := State.resetWith defaultParams

end Sys2Proof.Machine
end

