-- ==== Sys2Proof/Machine/Framebuffer.lean ====
section
/-! DEFINITION. The framebuffer: 32 rows of 64 pixels, addressed with wrap (10_state.md R35, R36, R37), and the XOR drawing
of a sprite (41_display.md R111 to R113). -/

namespace Sys2Proof.Machine

/-- The framebuffer's type. -/
abbrev Framebuffer := Vector PixelRow 32

/-- FBGet(r, c): FB[r mod 32][c mod 64] (R36). -/
def Framebuffer.pixel (fb : Framebuffer) (r c : Nat) : Bool :=
  (fb[r % 32]'(Nat.mod_lt _ (by decide))).getLsbD (c % 64)

/-- A row with the pixel of column `c` replaced. -/
def PixelRow.setPixel (row : PixelRow) (c : Nat) (b : Bool) : PixelRow :=
  if b then row ||| BitVec.twoPow 64 c else row &&& ~~~ BitVec.twoPow 64 c

/-- FBSet(r, c, b): writes b into FB[r mod 32][c mod 64] (R36). -/
def Framebuffer.setPixel (fb : Framebuffer) (r c : Nat) (b : Bool) : Framebuffer :=
  fb.set (r % 32) (PixelRow.setPixel (fb[r % 32]'(Nat.mod_lt _ (by decide))) (c % 64) b) (Nat.mod_lt _ (by decide))

/-- FBClear(): every pixel 0 (R37). -/
def Framebuffer.clear : Framebuffer := Vector.replicate 32 0

/-- A drawing in progress: the framebuffer, and whether a set sprite bit has met a set pixel so far. -/
structure Drawing where
  fb       : Framebuffer
  collided : Bool
  deriving DecidableEq, Repr

/-- A set sprite bit toggles its pixel, and collides if the pixel was set (R111, R113). -/
def Drawing.toggle (d : Drawing) (r c : Nat) : Drawing where
  fb := d.fb.setPixel r c (d.fb.pixel r c ^^ true)
  collided := d.collided || d.fb.pixel r c

/-- Sprite bit order: bit 7 of the row byte is column c = 0, bit 0 column c = 7 (R112, decision D11). PRESUMED: the spec
supplies it from general knowledge. Log 11. -/
def spriteBit (b : Byte) (c : Nat) : Bool := b.getLsbD (7 - c)

/-- Draw columns `c`, `c + 1`, .. of one sprite row, `k` of them, at row `row` and column `col + c` (R111). -/
def Drawing.columns (b : Byte) (row col : Nat) : Nat → Nat → Drawing → Drawing
  | 0, _, d => d
  | k + 1, c, d => Drawing.columns b row col k (c + 1) (if spriteBit b c then d.toggle row (col + c) else d)

/-- Draw the sprite rows from the top at row `row`, column `col` (R111). -/
def Drawing.rows (col : Nat) : List Byte → Nat → Drawing → Drawing
  | [], _, d => d
  | b :: bs, row, d => Drawing.rows col bs (row + 1) (Drawing.columns b row col 8 0 d)

end Sys2Proof.Machine
end

