-- ==== Sys2Proof/Machine/Memory.lean ====
section
/-! DEFINITION. The 4096-byte memory as a list of cells in one canonical form (20_memory.md R50 to R54): addresses strictly
rising, and no cell equal to the reset contents of its address. -/

namespace Sys2Proof.Machine

/-- What an address that is not listed reads as: the reset contents, glyph k of the font at 5k..5k+4 and 0 elsewhere
(70_reset_and_hazards.md R241; 20_memory.md R54). -/
def Memory.resetByte (font : Font) (a : Nat) : Byte :=
  if h : a < 80 then (font[a / 5]'(by omega))[a % 5]'(Nat.mod_lt _ (by decide)) else 0

/-- The byte listed for an address, if any. -/
def Memory.lookup : List Host.Cell → Nat → Option Byte
  | [], _ => none
  | c :: m, a => if c.1 = a then some c.2 else Memory.lookup m a

/-- The byte at address `a` (R52). -/
def Memory.read (font : Font) (m : List Host.Cell) (a : Nat) : Byte :=
  (Memory.lookup m a).getD (Memory.resetByte font a)

/-- List `b` at address `a`, in place of what was listed there. -/
def Memory.insert : List Host.Cell → Nat → Byte → List Host.Cell
  | [], a, b => [(a, b)]
  | c :: m, a, b =>
    if a < c.1 then (a, b) :: c :: m
    else if a = c.1 then (a, b) :: m
    else c :: Memory.insert m a b

/-- List nothing at address `a`. -/
def Memory.erase (m : List Host.Cell) (a : Nat) : List Host.Cell := m.filter fun c => c.1 != a

/-- Write `b` at address `a`: the cell is listed only if it differs from the reset contents. -/
def Memory.write (font : Font) (m : List Host.Cell) (a : Nat) (b : Byte) : List Host.Cell :=
  if b = Memory.resetByte font a then Memory.erase m a else Memory.insert m a b

/-- The canonical form: addresses strictly rising and inside 0x000..0xFFF, no cell equal to the reset contents. -/
abbrev Memory.wf (font : Font) (m : List Host.Cell) : Prop :=
  m.Pairwise (fun c d => c.1 < d.1) ∧ ∀ c ∈ m, c.1 < 4096 ∧ c.2 ≠ Memory.resetByte font c.1

end Sys2Proof.Machine
end

