-- ==== Sys2Proof/Machine/Operands.lean ====
section
/-! DEFINITION. The operand forms: immediates (30_encoding.md R73), byte addresses through I (20_memory.md R51), the register
range V0..Vx, the decimal digits of LD B, the glyph address of LD F, and the newly pressed keys of LD Vx, K. -/

namespace Sys2Proof.Machine

/-- nnn, zero-extended to 16 bits (30_encoding.md R73). -/
def zextNnn (nnn : BitVec 12) : Word := nnn.setWidth 16

/-- A byte, zero-extended to 16 bits (00_scope.md R10). -/
def zextByte (b : Byte) : Word := b.setWidth 16

/-- v & 0xFFF (10_state.md R24; 20_memory.md R51). -/
def mask12 (w : Word) : Word := w &&& 0xFFF

/-- The address of the k-th byte of an access that starts at `base`: (base + k) & 0xFFF (20_memory.md R51). -/
def byteAddr (base : Word) (k : Nat) : Nat := (base.toNat + k) % 4096

/-- The register index of a count 0..15. -/
def regIdx (k : Nat) : RegIdx := Fin.ofNat 16 k

/-- V0..Vx, inclusive of Vx (44_index_memory.md R174). -/
def regsThrough (x : RegIdx) (s : State) : List Byte := s.v.toList.take (x.val + 1)

/-- The hundreds, tens and ones digits (44_index_memory.md R173). -/
def decimalDigits (b : Byte) : List Byte :=
  [BitVec.ofNat 8 (b.toNat / 100), BitVec.ofNat 8 (b.toNat / 10 % 10), BitVec.ofNat 8 (b.toNat % 10)]

/-- vx * 5, the address of the glyph of a hex digit (44_index_memory.md R172, decision D27: vx is not masked). -/
def glyphAddr (vx : Byte) : Word := zextByte vx * 5

/-- A register as a key index, if it names a key (45_keys_timers.md R190, decision D14). -/
def keyIndex (vx : Byte) : Option RegIdx :=
  if h : vx.toNat < 16 then some ⟨vx.toNat, h⟩ else none

/-- The keys 0 in `prev` and 1 in `now`, in ascending order: the set E of 45_keys_timers.md R195. -/
def newlyPressed (prev now : Word) : List RegIdx :=
  (List.finRange 16).filter fun k => !prev.getLsbD k.val && now.getLsbD k.val

/-- A key index as the byte stored into V[x]. -/
def keyByte (k : RegIdx) : Byte := BitVec.ofNat 8 k.val

end Sys2Proof.Machine
end

