-- ==== Sys2Proof/Machine/Ops.lean ====
section
/-! DEFINITION. The named operations over the state: the pseudocode primitives of 00_scope.md R11, and taking a fatal fault
as one shared operation (60_exceptions.md R218). There is no return from a fault (R221). -/

namespace Sys2Proof.Machine

/-- What one step of this machine answers. -/
abbrev Result := Host.Outcome State Fault Refusal

/-! ### Registers -/

/-- `V[x]` (10_state.md R20). -/
def State.getV (s : State) (x : RegIdx) : Byte := s.v[x.val]

/-- `V[x] <- b` (R21). -/
def State.setV (s : State) (x : RegIdx) (b : Byte) : State := { s with v := s.v.set x.val b }

/-- VF, the flag register (R22). -/
abbrev vf : RegIdx := 15

/-- `I <- w`, which stores w & 0xFFF (R24). -/
def State.setI (s : State) (w : Word) : State := { s with i := mask12 w }

/-- `PC <- w` (R27). -/
def State.setPc (s : State) (w : Word) : State := { s with pc := w }

/-- PC advanced by 2, modulo 65536: the fetch advance and the skip (R27). -/
def State.advancePc (s : State) : State := s.setPc (s.pc + 2)

/-- The address of the instruction that is executing: PC has already advanced past it (40_cycle.md R93). Log 9. -/
def State.instrAddr (s : State) : Word := s.pc - 2

/-- `DT <- b` (R33). -/
def State.setDt (s : State) (b : Byte) : State := { s with dt := b }

/-- `ST <- b` (R34). -/
def State.setSt (s : State) (b : Byte) : State := { s with st := b }

/-- `MODE <- m` (R38). -/
def State.setMode (s : State) (m : Mode) : State := { s with mode := m }

/-- `FB_DIRTY <- b` (R40). -/
def State.setDirty (s : State) (b : Bool) : State := { s with fbDirty := b }

/-- The framebuffer replaced as a whole. -/
def State.setFb (s : State) (fb : Framebuffer) : State := { s with fb := fb }

/-- `KEY` replaced by the keypad collaborator (40_cycle.md R102). -/
def State.setKey (s : State) (k : Word) : State := { s with key := k }

/-- The moves still to come. -/
def State.setSchedule (s : State) (ms : List Move) : State := { s with schedule := ms }

/-- `Log(a, op)` (10_state.md R41). -/
def State.appendLog (s : State) (a op : Word) : State := { s with log := s.log ++ [⟨a, op⟩] }

/-! ### Fatal faults (60_exceptions.md R218) -/

/-- `raise Fault(cause)`: MODE <- Halted(cause), nothing else of the instruction is performed. The outputs `fault` and
`fault_cause` follow MODE (Machine/Outputs.lean). Log 9. -/
def raise (c : Cause) (s : State) : Result := .next (s.setMode (.halted c))

/-- Finish an instruction: its state, or, when a check failed before its first write (R219), the fault taken from the
state it started in. -/
def finish (r : Except Cause State) (s : State) : Result :=
  match r with
  | .ok t => .next t
  | .error c => raise c s

/-! ### Call stack -/

/-- Push(w): StackOverflow at depth 16, else STACK[SP] <- w, SP <- SP + 1 (10_state.md R31). -/
def State.push (s : State) (w : Word) : Except Cause State :=
  if h : s.sp.val < 16 then
    .ok { s with stack := s.stack.set s.sp.val w, sp := ⟨s.sp.val + 1, by omega⟩ }
  else .error (.stackOverflow s.instrAddr)

/-- Pop(): StackUnderflow at depth 0, else SP <- SP - 1 and STACK[SP] (R32). -/
def State.pop (s : State) : Except Cause (Word × State) :=
  if h : 0 < s.sp.val then
    .ok (s.stack[s.sp.val - 1], { s with sp := ⟨s.sp.val - 1, by omega⟩ })
  else .error (.stackUnderflow s.instrAddr)

/-! ### Memory -/

/-- MemRead(a, 1): the byte at a & 0xFFF (20_memory.md R52). -/
def State.memRead (s : State) (a : Nat) : Byte := Memory.read s.params.font s.mem (a % 4096)

/-- The byte at address `a` replaced. -/
def State.setByte (s : State) (a : Nat) (b : Byte) : State := { s with mem := Memory.write s.params.font s.mem a b }

/-- MemWrite(a, 1, b) under the policy P_LOW_WRITE (R53, decision D8). -/
def State.memWrite (s : State) (a : Nat) (b : Byte) : Except Cause State :=
  if 0x200 ≤ a % 4096 then .ok (s.setByte (a % 4096) b)
  else match s.params.lowWrite with
    | .fault => .error (.protectedWrite s.instrAddr (a % 4096))
    | .write => .ok (s.setByte (a % 4096) b)
    | .ignore => .ok s

/-- MemWrite of each byte in turn, from address `a` upwards (R57). -/
def State.memWrites (s : State) (a : Nat) : List Byte → Except Cause State
  | [] => .ok s
  | b :: bs =>
    match s.memWrite a b with
    | .ok t => t.memWrites (a + 1) bs
    | .error c => .error c

/-- The first of the `n` byte addresses from `base` that P_LOW_WRITE = `fault` protects (44_index_memory.md R173, R174). -/
def State.protectedAddr (s : State) (base : Word) (n : Nat) : Option Nat :=
  match s.params.lowWrite with
  | .fault => ((List.range n).map (byteAddr base)).find? fun a => decide (a < 0x200)
  | .write => none
  | .ignore => none

/-- Store the bytes at `base`, `base + 1`, ..: every address is checked before any byte is written (R53, R173, R174). -/
def State.storeBytes (s : State) (base : Word) (bs : List Byte) : Except Cause State :=
  match s.protectedAddr base bs.length with
  | some a => .error (.protectedWrite s.instrAddr a)
  | none => s.memWrites base.toNat bs

/-- The `n` bytes at `base`, `base + 1`, .., each address wrapped (R51). -/
def State.memReads (s : State) (base : Word) (n : Nat) : List Byte :=
  (List.range n).map fun k => s.memRead (byteAddr base k)

/-- V[0..k] loaded from the bytes at `base`, `base + 1`, .. in ascending order (44_index_memory.md R175). -/
def State.loadV (s : State) (base : Word) : Nat → State
  | 0 => s.setV (regIdx 0) (s.memRead (byteAddr base 0))
  | k + 1 => (s.loadV base k).setV (regIdx (k + 1)) (s.memRead (byteAddr base (k + 1)))

/-- What P_LDST_I does to I after Fx55 and Fx65, `i` being I at the start (R176, decision D16). -/
def State.advanceI (s : State) (i : Word) (x : RegIdx) : State :=
  match s.params.ldstI with
  | .unchanged => s
  | .increment => s.setI (i + BitVec.ofNat 16 (x.val + 1))

/-! ### Skips, draws and the display -/

/-- A skip: PC <- (PC + 2) mod 65536 if the condition holds (42_control_flow.md R128). -/
def State.skipIf (s : State) (c : Bool) : State := if c then s.advancePc else s

/-- One free value has been drawn. -/
def State.countDraw (s : State) : State := { s with draws := s.draws + 1 }

/-- RandomByte(): the next free byte (10_state.md R43). Log 6. -/
def State.randomByte (s : State) : Byte := Config.randomByte s.draws

/-- One of several keys newly pressed at once: a free choice (45_keys_timers.md R195, decision D15). Log 7. -/
def State.chooseKey (s : State) (k : RegIdx) (ks : List RegIdx) : RegIdx :=
  (k :: ks).getD (Config.keyChoice s.draws % (ks.length + 1)) k

/-- The framebuffer and collision bit after drawing the sprite rows at row `row`, column `col` (41_display.md R111). -/
def State.drawSprite (s : State) (rows : List Byte) (row col : Nat) : Drawing :=
  Drawing.rows col rows row ⟨s.fb, false⟩

end Sys2Proof.Machine
end

