-- ==== Sys2Proof/Machine/Flags.lean ====
section
/-! DEFINITION. Every flag computation (VF as carry, no-borrow, shifted-out bit, collision; 10_state.md R22, 43_alu.md R153)
and the order in which an instruction's two register writes combine (43_alu.md R140). -/

namespace Sys2Proof.Machine

/-- A condition as the byte VF takes: 1 or 0. -/
def flagByte (b : Bool) : Byte := if b then 1 else 0

/-- ADD Vx, Vy: 1 if the sum before truncation exceeds 255 (R147). -/
def carryFlag (vx vy : Byte) : Byte := flagByte (decide (255 < vx.toNat + vy.toNat))

/-- SUB and SUBN: 1 if the minuend is strictly greater than the subtrahend (R148, R150). -/
def noBorrowFlag (minuend subtrahend : Byte) : Byte := flagByte (decide (subtrahend.toNat < minuend.toNat))

/-- SHR: the bit shifted out, bit 0 (R149). -/
def lowBitFlag (vx : Byte) : Byte := flagByte (vx.getLsbD 0)

/-- SHL: the bit shifted out, bit 7 (R151). -/
def highBitFlag (vx : Byte) : Byte := flagByte (vx.getLsbD 7)

/-- Vx <- result, then VF <- flag, both from latched operands: ADD Vx, Vy under every P_VF_ORDER (R140, R147). -/
def State.resultThenFlag (s : State) (x : RegIdx) (result flag : Byte) : State := (s.setV x result).setV vf flag

/-- The writes `VF <- flag vx vy; Vx <- result vx vy` of SUB, SHR, SUBN and SHL under each reading of P_VF_ORDER (R140,
decision D10). -/
def State.flagAndResult (s : State) (flag result : Byte → Byte → Byte) (x y : RegIdx) : State :=
  match s.params.vfOrder with
  | .latchedTableOrder =>
    (s.setV vf (flag (s.getV x) (s.getV y))).setV x (result (s.getV x) (s.getV y))
  | .latchedFlagLast => s.resultThenFlag x (result (s.getV x) (s.getV y)) (flag (s.getV x) (s.getV y))
  | .sequentialReread =>
    let t := s.setV vf (flag (s.getV x) (s.getV y))
    t.setV x (result (t.getV x) (t.getV y))

end Sys2Proof.Machine
end

