-- ==== Sys2Proof/Machine/Alu.lean ====
section
/-! DEFINITION. Register and ALU instructions: LD, ADD, OR, AND, XOR, SUB, SHR, SUBN, SHL, RND (43_alu.md). -/

namespace Sys2Proof.Machine

/-- LD Vx, byte (R141). -/
def execLdByte (x : RegIdx) (nn : Byte) (s : State) : Result := .next (s.setV x nn)

/-- ADD Vx, byte: no flag (R142). -/
def execAddByte (x : RegIdx) (nn : Byte) (s : State) : Result := .next (s.setV x (s.getV x + nn))

/-- LD Vx, Vy (R143). -/
def execLdReg (x y : RegIdx) (s : State) : Result := .next (s.setV x (s.getV y))

/-- OR Vx, Vy: VF is not reset (R144, decision D17). -/
def execOrReg (x y : RegIdx) (s : State) : Result := .next (s.setV x (s.getV x ||| s.getV y))

/-- AND Vx, Vy: VF is not reset (R145, decision D17). -/
def execAndReg (x y : RegIdx) (s : State) : Result := .next (s.setV x (s.getV x &&& s.getV y))

/-- XOR Vx, Vy: VF is not reset (R146, decision D17). -/
def execXorReg (x y : RegIdx) (s : State) : Result := .next (s.setV x (s.getV x ^^^ s.getV y))

/-- ADD Vx, Vy (R147). -/
def execAddReg (x y : RegIdx) (s : State) : Result :=
  .next (s.resultThenFlag x (s.getV x + s.getV y) (carryFlag (s.getV x) (s.getV y)))

/-- SUB Vx, Vy (R148). -/
def execSubReg (x y : RegIdx) (s : State) : Result :=
  .next (s.flagAndResult (fun vx vy => noBorrowFlag vx vy) (fun vx vy => vx - vy) x y)

/-- SHR Vx: the y nibble is ignored (R149, R74). -/
def execShr (x : RegIdx) (_y : BitVec 4) (s : State) : Result :=
  .next (s.flagAndResult (fun vx _ => lowBitFlag vx) (fun vx _ => vx >>> 1) x x)

/-- SUBN Vx, Vy (R150). -/
def execSubnReg (x y : RegIdx) (s : State) : Result :=
  .next (s.flagAndResult (fun vx vy => noBorrowFlag vy vx) (fun vx vy => vy - vx) x y)

/-- SHL Vx: the y nibble is ignored (R151, R74). -/
def execShl (x : RegIdx) (_y : BitVec 4) (s : State) : Result :=
  .next (s.flagAndResult (fun vx _ => highBitFlag vx) (fun vx _ => vx <<< 1) x x)

/-- RND Vx, byte: one free byte is drawn and masked (R152). Log 6. -/
def execRnd (x : RegIdx) (nn : Byte) (s : State) : Result :=
  .next ((s.setV x (s.randomByte &&& nn)).countDraw)

end Sys2Proof.Machine
end

