-- ==== Sys2Proof/Machine/Control.lean ====
section
/-! DEFINITION. Control transfer: RET, JP, CALL, SE, SNE, JP V0 (42_control_flow.md). -/

namespace Sys2Proof.Machine

/-- RET (R120). -/
def execRet (s : State) : Result :=
  finish (match s.pop with
    | .ok (w, t) => .ok (t.setPc w)
    | .error c => .error c) s

/-- JP nnn (R121). -/
def execJp (nnn : BitVec 12) (s : State) : Result := .next (s.setPc (zextNnn nnn))

/-- CALL nnn (R122). -/
def execCall (nnn : BitVec 12) (s : State) : Result :=
  finish (match s.push s.pc with
    | .ok t => .ok (t.setPc (zextNnn nnn))
    | .error c => .error c) s

/-- SE Vx, byte (R123). -/
def execSeByte (x : RegIdx) (nn : Byte) (s : State) : Result := .next (s.skipIf (s.getV x == nn))

/-- SNE Vx, byte (R124). -/
def execSneByte (x : RegIdx) (nn : Byte) (s : State) : Result := .next (s.skipIf (s.getV x != nn))

/-- SE Vx, Vy: the n nibble is ignored (R125, R74). -/
def execSeReg (x y : RegIdx) (_n : BitVec 4) (s : State) : Result := .next (s.skipIf (s.getV x == s.getV y))

/-- SNE Vx, Vy: the n nibble is ignored (R126, R74). -/
def execSneReg (x y : RegIdx) (_n : BitVec 4) (s : State) : Result := .next (s.skipIf (s.getV x != s.getV y))

/-- JP V0, nnn: an absolute jump, the sum wrapped at 12 bits (R127). -/
def execJpV0 (nnn : BitVec 12) (s : State) : Result :=
  .next (s.setPc (mask12 (zextNnn nnn + zextByte (s.getV 0))))

end Sys2Proof.Machine
end

