-- ==== Sys2Proof/Machine/Display.lean ====
section
/-! DEFINITION. Display instructions: CLS and DRW (41_display.md). -/

namespace Sys2Proof.Machine

/-- CLS (R110). -/
def execCls (s : State) : Result := .next ((s.setFb Framebuffer.clear).setDirty true)

/-- DRW Vx, Vy, n: the sprite at I is drawn at row Vy, column Vx; operands are latched before VF is written (R111). -/
def execDrw (x y : RegIdx) (n : Fin 16) (s : State) : Result :=
  let d := s.drawSprite (s.memReads s.i n.val) (s.getV y).toNat (s.getV x).toNat
  .next (((s.setFb d.fb).setV vf (flagByte d.collided)).setDirty true)

end Sys2Proof.Machine
end

