-- ==== Sys2Proof/Machine/IndexMemory.lean ====
section
/-! DEFINITION. Index register and memory instructions: LD I, ADD I, LD F, LD B, LD [I], LD Vx,[I] (44_index_memory.md). -/

namespace Sys2Proof.Machine

/-- LD I, nnn (R170). -/
def execLdI (nnn : BitVec 12) (s : State) : Result := .next (s.setI (zextNnn nnn))

/-- ADD I, Vx: 12-bit wrap, no flag (R171). -/
def execAddI (x : RegIdx) (s : State) : Result := .next (s.setI (s.i + zextByte (s.getV x)))

/-- LD F, Vx (R172). -/
def execLdF (x : RegIdx) (s : State) : Result := .next (s.setI (glyphAddr (s.getV x)))

/-- LD B, Vx: hundreds, tens, ones at I, I+1, I+2 (R173). -/
def execLdB (x : RegIdx) (s : State) : Result := finish (s.storeBytes s.i (decimalDigits (s.getV x))) s

/-- LD [I], Vx: V0..Vx at I..I+x, then P_LDST_I (R174, R176). -/
def execStoreRegs (x : RegIdx) (s : State) : Result :=
  finish (match s.storeBytes s.i (regsThrough x s) with
    | .ok t => .ok (t.advanceI s.i x)
    | .error c => .error c) s

/-- LD Vx, [I]: V0..Vx from I..I+x, then P_LDST_I (R175, R176). -/
def execLoadRegs (x : RegIdx) (s : State) : Result := .next ((s.loadV s.i x.val).advanceI s.i x)

end Sys2Proof.Machine
end

