-- ==== Sys2Proof/Machine/KeysTimers.lean ====
section
/-! DEFINITION. Keypad and timer instructions: SKP, SKNP, LD Vx,DT, LD DT, LD ST, LD Vx,K (45_keys_timers.md). -/

namespace Sys2Proof.Machine

/-- The skip of SKP and SKNP: KeyIndexOutOfRange when Vx > 15, else a skip if KEY[Vx] = `wanted` (R190, R191). -/
def State.skipIfKey (s : State) (vx : Byte) (wanted : Bool) : Except Cause State :=
  match keyIndex vx with
  | some k => .ok (s.skipIf (s.key.getLsbD k.val == wanted))
  | none => .error (.keyIndexOutOfRange s.instrAddr vx)

/-- SKP Vx (R190). -/
def execSkp (x : RegIdx) (s : State) : Result := finish (s.skipIfKey (s.getV x) true) s

/-- SKNP Vx (R191). -/
def execSknp (x : RegIdx) (s : State) : Result := finish (s.skipIfKey (s.getV x) false) s

/-- LD Vx, DT (R192). -/
def execLdVxDt (x : RegIdx) (s : State) : Result := .next (s.setV x s.dt)

/-- LD Vx, K: the Fx0A cycle suspends the instruction stream with the keypad as sampled now (R195). -/
def execLdVxK (x : RegIdx) (s : State) : Result := .next (s.setMode (.waitingForKey x s.key))

/-- LD DT, Vx (R193). -/
def execLdDtVx (x : RegIdx) (s : State) : Result := .next (s.setDt (s.getV x))

/-- LD ST, Vx (R194). -/
def execLdStVx (x : RegIdx) (s : State) : Result := .next (s.setSt (s.getV x))

/-- The key wait ends with key `k`: V[x] <- k, MODE <- Running (R195). -/
def State.endWait (s : State) (x k : RegIdx) : State := (s.setV x (keyByte k)).setMode .running

/-- WaitStep: one core step in MODE WaitingForKey(x, prev) (R195). With several newly pressed keys the choice is a free
value (decision D15, log 7). -/
def State.waitStep (s : State) (x : RegIdx) (prev : Word) : State :=
  match newlyPressed prev s.key with
  | [] => s.setMode (.waitingForKey x s.key)
  | [k] => s.endWait x k
  | k :: ks => (s.endWait x (s.chooseKey k ks)).countDraw

end Sys2Proof.Machine
end

