-- ==== Sys2Proof/Syntax.lean ====
section
/-! DEFINITION. The instruction set as syntax: one constructor per row of spec/opcode_table.json (30_encoding.md R75), with
the fields of R71 the row names. Nibbles an instruction ignores (R74, R76) are kept, so that its encoding loses no bit
(log 15). -/

namespace Sys2Proof

/-- The 34 instructions of 30_encoding.md R75, in the table's order. -/
inductive Instr where
  /-- 00E0 CLS -/
  | cls
  /-- 00EE RET -/
  | ret
  /-- 1nnn JP nnn -/
  | jp (nnn : BitVec 12)
  /-- 2nnn CALL nnn -/
  | call (nnn : BitVec 12)
  /-- 3xkk SE Vx, byte -/
  | seByte (x : RegIdx) (nn : Byte)
  /-- 4xkk SNE Vx, byte -/
  | sneByte (x : RegIdx) (nn : Byte)
  /-- 5xyN SE Vx, Vy (N ignored) -/
  | seReg (x y : RegIdx) (nIgnored : BitVec 4)
  /-- 6xkk LD Vx, byte -/
  | ldByte (x : RegIdx) (nn : Byte)
  /-- 7xkk ADD Vx, byte -/
  | addByte (x : RegIdx) (nn : Byte)
  /-- 8xy0 LD Vx, Vy -/
  | ldReg (x y : RegIdx)
  /-- 8xy1 OR Vx, Vy -/
  | orReg (x y : RegIdx)
  /-- 8xy2 AND Vx, Vy -/
  | andReg (x y : RegIdx)
  /-- 8xy3 XOR Vx, Vy -/
  | xorReg (x y : RegIdx)
  /-- 8xy4 ADD Vx, Vy -/
  | addReg (x y : RegIdx)
  /-- 8xy5 SUB Vx, Vy -/
  | subReg (x y : RegIdx)
  /-- 8xy6 SHR Vx (y ignored) -/
  | shr (x : RegIdx) (yIgnored : BitVec 4)
  /-- 8xy7 SUBN Vx, Vy -/
  | subnReg (x y : RegIdx)
  /-- 8xyE SHL Vx (y ignored) -/
  | shl (x : RegIdx) (yIgnored : BitVec 4)
  /-- 9xyN SNE Vx, Vy (N ignored) -/
  | sneReg (x y : RegIdx) (nIgnored : BitVec 4)
  /-- Annn LD I, nnn -/
  | ldI (nnn : BitVec 12)
  /-- Bnnn JP V0, nnn -/
  | jpV0 (nnn : BitVec 12)
  /-- Cxkk RND Vx, byte -/
  | rnd (x : RegIdx) (nn : Byte)
  /-- Dxyn DRW Vx, Vy, n -/
  | drw (x y : RegIdx) (n : Fin 16)
  /-- Ex9E SKP Vx -/
  | skp (x : RegIdx)
  /-- ExA1 SKNP Vx -/
  | sknp (x : RegIdx)
  /-- Fx07 LD Vx, DT -/
  | ldVxDt (x : RegIdx)
  /-- Fx0A LD Vx, K -/
  | ldVxK (x : RegIdx)
  /-- Fx15 LD DT, Vx -/
  | ldDtVx (x : RegIdx)
  /-- Fx18 LD ST, Vx -/
  | ldStVx (x : RegIdx)
  /-- Fx1E ADD I, Vx -/
  | addI (x : RegIdx)
  /-- Fx29 LD F, Vx -/
  | ldF (x : RegIdx)
  /-- Fx33 LD B, Vx -/
  | ldB (x : RegIdx)
  /-- Fx55 LD [I], Vx -/
  | storeRegs (x : RegIdx)
  /-- Fx65 LD Vx, [I] -/
  | loadRegs (x : RegIdx)
  deriving DecidableEq, Repr

end Sys2Proof
end

