-- ==== Sys2Proof/WellFormed.lean ====
section
/-! DEFINITION. Which instruction terms an encoding stands for. The field types already bound every field; the one check
left is the n nibble of 5xyN and 9xyN, which must be 0 under P_DECODE_5_9 = `strict` (30_encoding.md R76). -/

namespace Sys2Proof

/-- The n nibble of 5xyN and 9xyN is legal: any under `high_nibble`, 0 under `strict` (30_encoding.md R76). -/
def ignoredNibbleOk (d : Decode59) (n : BitVec 4) : Bool :=
  match d with
  | .highNibble => true
  | .strict => n == 0

/-- The instruction is one the decoder can produce under P_DECODE_5_9 = `d` (30_encoding.md R75, R76). -/
def Instr.wellFormed (d : Decode59) (i : Instr) : Bool :=
  match i with
  | .seReg _ _ n => ignoredNibbleOk d n
  | .sneReg _ _ n => ignoredNibbleOk d n
  | .cls | .ret | .jp _ | .call _ | .seByte _ _ | .sneByte _ _ | .ldByte _ _ | .addByte _ _ => true
  | .ldReg _ _ | .orReg _ _ | .andReg _ _ | .xorReg _ _ | .addReg _ _ | .subReg _ _ | .shr _ _ => true
  | .subnReg _ _ | .shl _ _ | .ldI _ | .jpV0 _ | .rnd _ _ | .drw _ _ _ | .skp _ | .sknp _ => true
  | .ldVxDt _ | .ldVxK _ | .ldDtVx _ | .ldStVx _ | .addI _ | .ldF _ | .ldB _ | .storeRegs _ | .loadRegs _ => true

end Sys2Proof
end

