-- ==== Sys2Proof/Decode.lean ====
section
/-! DEFINITION. The decoder, a total function of the 16-bit opcode (30_encoding.md R72), and the encoder, both written from
the format of R71 and the opcode map of R75. An opcode that matches no row is Unknown (R77): `none`. -/

namespace Sys2Proof

/-! ### Fields (30_encoding.md R71) -/

/-- Bits 15:12, the primary dispatch key. -/
def opField (w : Word) : BitVec 4 := w.extractLsb' 12 4

/-- Bits 11:8, as written. -/
def xNibble (w : Word) : BitVec 4 := w.extractLsb' 8 4

/-- Bits 7:4, as written. -/
def yNibble (w : Word) : BitVec 4 := w.extractLsb' 4 4

/-- Bits 3:0, as written. -/
def nNibble (w : Word) : BitVec 4 := w.extractLsb' 0 4

/-- Bits 11:8 as the register index x. -/
def xField (w : Word) : RegIdx := (xNibble w).toFin

/-- Bits 7:4 as the register index y. -/
def yField (w : Word) : RegIdx := (yNibble w).toFin

/-- Bits 7:0, the byte immediate. -/
def nnField (w : Word) : Byte := w.extractLsb' 0 8

/-- Bits 11:0, the address immediate. -/
def nnnField (w : Word) : BitVec 12 := w.extractLsb' 0 12

/-! ### Decoder (30_encoding.md R75 to R78) -/

/-- Family 0 is matched on all 16 bits (R78, decision D19). -/
def decodeFamily0 (w : Word) : Option Instr :=
  if w = 0x00E0 then some .cls
  else if w = 0x00EE then some .ret
  else none

/-- Family 8 is keyed by the low nibble (R75). -/
def decodeFamily8 (w : Word) : Option Instr :=
  if nNibble w = 0x0 then some (.ldReg (xField w) (yField w))
  else if nNibble w = 0x1 then some (.orReg (xField w) (yField w))
  else if nNibble w = 0x2 then some (.andReg (xField w) (yField w))
  else if nNibble w = 0x3 then some (.xorReg (xField w) (yField w))
  else if nNibble w = 0x4 then some (.addReg (xField w) (yField w))
  else if nNibble w = 0x5 then some (.subReg (xField w) (yField w))
  else if nNibble w = 0x6 then some (.shr (xField w) (yNibble w))
  else if nNibble w = 0x7 then some (.subnReg (xField w) (yField w))
  else if nNibble w = 0xE then some (.shl (xField w) (yNibble w))
  else none

/-- Families 5 and 9: an instruction whose n nibble is legal under P_DECODE_5_9, else Unknown (R76, decision D18). -/
def decodeIfNibbleOk (d : Decode59) (w : Word) (i : Instr) : Option Instr :=
  if ignoredNibbleOk d (nNibble w) then some i else none

/-- Family E is keyed by the low byte (R75). -/
def decodeFamilyE (w : Word) : Option Instr :=
  if nnField w = 0x9E then some (.skp (xField w))
  else if nnField w = 0xA1 then some (.sknp (xField w))
  else none

/-- Family F is keyed by the low byte (R75). -/
def decodeFamilyF (w : Word) : Option Instr :=
  if nnField w = 0x07 then some (.ldVxDt (xField w))
  else if nnField w = 0x0A then some (.ldVxK (xField w))
  else if nnField w = 0x15 then some (.ldDtVx (xField w))
  else if nnField w = 0x18 then some (.ldStVx (xField w))
  else if nnField w = 0x1E then some (.addI (xField w))
  else if nnField w = 0x29 then some (.ldF (xField w))
  else if nnField w = 0x33 then some (.ldB (xField w))
  else if nnField w = 0x55 then some (.storeRegs (xField w))
  else if nnField w = 0x65 then some (.loadRegs (xField w))
  else none

/-- Decode(opcode): dispatch on the high nibble, then the family's own key (R75). `none` is Unknown (R77). The last case
of the chain, op = 0xF, is written out: no op falls through to a neighbour. -/
def decode (d : Decode59) (w : Word) : Option Instr :=
  if opField w = 0x0 then decodeFamily0 w
  else if opField w = 0x1 then some (.jp (nnnField w))
  else if opField w = 0x2 then some (.call (nnnField w))
  else if opField w = 0x3 then some (.seByte (xField w) (nnField w))
  else if opField w = 0x4 then some (.sneByte (xField w) (nnField w))
  else if opField w = 0x5 then decodeIfNibbleOk d w (.seReg (xField w) (yField w) (nNibble w))
  else if opField w = 0x6 then some (.ldByte (xField w) (nnField w))
  else if opField w = 0x7 then some (.addByte (xField w) (nnField w))
  else if opField w = 0x8 then decodeFamily8 w
  else if opField w = 0x9 then decodeIfNibbleOk d w (.sneReg (xField w) (yField w) (nNibble w))
  else if opField w = 0xA then some (.ldI (nnnField w))
  else if opField w = 0xB then some (.jpV0 (nnnField w))
  else if opField w = 0xC then some (.rnd (xField w) (nnField w))
  else if opField w = 0xD then some (.drw (xField w) (yField w) (nNibble w).toFin)
  else if opField w = 0xE then decodeFamilyE w
  else if opField w = 0xF then decodeFamilyF w
  else none

/-- The opcode of two bytes as memory stores them, most significant byte at the lower address (R70; 20_memory.md R56). -/
def opcodeOfBytes (hi lo : Byte) : Word := hi ++ lo

/-- Decoding from the two bytes at PC and PC + 1. -/
def decodeBytes (d : Decode59) (hi lo : Byte) : Option Instr := decode d (opcodeOfBytes hi lo)

/-- The most significant byte of an opcode, stored at the lower address (R70). -/
def highByte (w : Word) : Byte := w.extractLsb' 8 8

/-- The least significant byte of an opcode, stored at the higher address (R70). -/
def lowByte (w : Word) : Byte := w.extractLsb' 0 8

/-- The opcode numbered as spec/opcode_table.json numbers it; every bit above `nbits` is 0. -/
def tableOpcode (nbits w : Nat) : Word := BitVec.ofNat 16 (w % 2 ^ nbits)

/-- What the decoder reads from an opcode of the table, laid out big-endian, under the default P_DECODE_5_9. -/
def decodeTableWord (nbits w : Nat) : Option Instr :=
  decodeBytes .highNibble (highByte (tableOpcode nbits w)) (lowByte (tableOpcode nbits w))

/-! ### Encoder (30_encoding.md R71, R75) -/

/-- A register index or sprite height as a 4-bit field. -/
def nibble (x : Fin 16) : BitVec 4 := BitVec.ofFin x

/-- op, nnn: the address form. -/
def encodeNnn (op : BitVec 4) (nnn : BitVec 12) : Word := op ++ nnn

/-- op, x, nn: the byte form. -/
def encodeXnn (op : BitVec 4) (x : RegIdx) (nn : Byte) : Word := op ++ nibble x ++ nn

/-- op, x, y, n: the nibble form. -/
def encodeXyn (op x y n : BitVec 4) : Word := op ++ x ++ y ++ n

/-- The opcode of an instruction (R75). -/
def encode (i : Instr) : Word :=
  match i with
  | .cls => 0x00E0
  | .ret => 0x00EE
  | .jp nnn => encodeNnn 0x1 nnn
  | .call nnn => encodeNnn 0x2 nnn
  | .seByte x nn => encodeXnn 0x3 x nn
  | .sneByte x nn => encodeXnn 0x4 x nn
  | .seReg x y n => encodeXyn 0x5 (nibble x) (nibble y) n
  | .ldByte x nn => encodeXnn 0x6 x nn
  | .addByte x nn => encodeXnn 0x7 x nn
  | .ldReg x y => encodeXyn 0x8 (nibble x) (nibble y) 0x0
  | .orReg x y => encodeXyn 0x8 (nibble x) (nibble y) 0x1
  | .andReg x y => encodeXyn 0x8 (nibble x) (nibble y) 0x2
  | .xorReg x y => encodeXyn 0x8 (nibble x) (nibble y) 0x3
  | .addReg x y => encodeXyn 0x8 (nibble x) (nibble y) 0x4
  | .subReg x y => encodeXyn 0x8 (nibble x) (nibble y) 0x5
  | .shr x y => encodeXyn 0x8 (nibble x) y 0x6
  | .subnReg x y => encodeXyn 0x8 (nibble x) (nibble y) 0x7
  | .shl x y => encodeXyn 0x8 (nibble x) y 0xE
  | .sneReg x y n => encodeXyn 0x9 (nibble x) (nibble y) n
  | .ldI nnn => encodeNnn 0xA nnn
  | .jpV0 nnn => encodeNnn 0xB nnn
  | .rnd x nn => encodeXnn 0xC x nn
  | .drw x y n => encodeXyn 0xD (nibble x) (nibble y) (nibble n)
  | .skp x => encodeXnn 0xE x 0x9E
  | .sknp x => encodeXnn 0xE x 0xA1
  | .ldVxDt x => encodeXnn 0xF x 0x07
  | .ldVxK x => encodeXnn 0xF x 0x0A
  | .ldDtVx x => encodeXnn 0xF x 0x15
  | .ldStVx x => encodeXnn 0xF x 0x18
  | .addI x => encodeXnn 0xF x 0x1E
  | .ldF x => encodeXnn 0xF x 0x29
  | .ldB x => encodeXnn 0xF x 0x33
  | .storeRegs x => encodeXnn 0xF x 0x55
  | .loadRegs x => encodeXnn 0xF x 0x65

/-! ### The opcode map as rows (30_encoding.md R75) -/

/-- The mask of families 5 and 9: F000, or F00F under `strict` (R75, R76). -/
def maskFor59 (d : Decode59) : Word :=
  match d with
  | .highNibble => 0xF000
  | .strict => 0xF00F

/-- R75's table as (mask, match) pairs in the table's order: a row matches an opcode when (opcode & mask) = match. -/
def opcodeRows (d : Decode59) : List (Word × Word) :=
  [(0xFFFF, 0x00E0), (0xFFFF, 0x00EE), (0xF000, 0x1000), (0xF000, 0x2000), (0xF000, 0x3000), (0xF000, 0x4000),
   (maskFor59 d, 0x5000), (0xF000, 0x6000), (0xF000, 0x7000)] ++
  [(0xF00F, 0x8000), (0xF00F, 0x8001), (0xF00F, 0x8002), (0xF00F, 0x8003), (0xF00F, 0x8004), (0xF00F, 0x8005),
   (0xF00F, 0x8006), (0xF00F, 0x8007), (0xF00F, 0x800E)] ++
  [(maskFor59 d, 0x9000), (0xF000, 0xA000), (0xF000, 0xB000), (0xF000, 0xC000), (0xF000, 0xD000)] ++
  [(0xF0FF, 0xE09E), (0xF0FF, 0xE0A1), (0xF0FF, 0xF007), (0xF0FF, 0xF00A), (0xF0FF, 0xF015), (0xF0FF, 0xF018),
   (0xF0FF, 0xF01E), (0xF0FF, 0xF029), (0xF0FF, 0xF033), (0xF0FF, 0xF055), (0xF0FF, 0xF065)]

/-- The place of an instruction's row in `opcodeRows`, counted from 0 (R75). -/
def Instr.rowIndex (i : Instr) : Nat :=
  match i with
  | .cls => 0
  | .ret => 1
  | .jp _ => 2
  | .call _ => 3
  | .seByte _ _ => 4
  | .sneByte _ _ => 5
  | .seReg _ _ _ => 6
  | .ldByte _ _ => 7
  | .addByte _ _ => 8
  | .ldReg _ _ => 9
  | .orReg _ _ => 10
  | .andReg _ _ => 11
  | .xorReg _ _ => 12
  | .addReg _ _ => 13
  | .subReg _ _ => 14
  | .shr _ _ => 15
  | .subnReg _ _ => 16
  | .shl _ _ => 17
  | .sneReg _ _ _ => 18
  | .ldI _ => 19
  | .jpV0 _ => 20
  | .rnd _ _ => 21
  | .drw _ _ _ => 22
  | .skp _ => 23
  | .sknp _ => 24
  | .ldVxDt _ => 25
  | .ldVxK _ => 26
  | .ldDtVx _ => 27
  | .ldStVx _ => 28
  | .addI _ => 29
  | .ldF _ => 30
  | .ldB _ => 31
  | .storeRegs _ => 32
  | .loadRegs _ => 33

/-- Row r matches opcode w (R75). -/
def rowMatches (w : Word) (r : Word × Word) : Bool := w &&& r.1 == r.2

end Sys2Proof
end

