-- ==== Sys2Proof/Machine/Fetch.lean ====
section
/-! DEFINITION. The fetch half of the cycle: the odd-PC check, the big-endian read, the PC advance, decode, and the logged
no-op of an Unknown opcode (40_cycle.md R92 to R95; 60_exceptions.md R214). -/

namespace Sys2Proof.Machine

/-- What the fetch leaves to do. -/
inductive Fetched where
  /-- Execute this instruction, PC already advanced. -/
  | execute (i : Instr) (s : State)
  /-- The cycle is over: a misaligned fetch, or an Unknown opcode. -/
  | done (r : Result)

/-- The opcode at PC: the byte at PC is bits 15:8, each byte address wrapped (20_memory.md R56). -/
def State.opcodeAtPc (s : State) : Word := opcodeOfBytes (s.memRead s.pc.toNat) (s.memRead (s.pc.toNat + 1))

/-- The fetch at this PC faults: an odd PC under P_ODD_PC = `fault` (40_cycle.md R94, decision D7). -/
def State.misaligned (s : State) : Bool := s.params.oddPc == .fault && s.pc.getLsbD 0

/-- The first part of Cycle(): FB_DIRTY <- 0, the odd-PC check, the fetch, PC <- a + 2, Decode (R92). An Unknown opcode is
logged with its address and has no other effect (R214). -/
def State.fetch (s : State) : Fetched :=
  if s.misaligned then .done (raise (.misalignedFetch s.pc) (s.setDirty false))
  else
    match decode s.params.decode59 s.opcodeAtPc with
    | some i => .execute i (s.setDirty false).advancePc
    | none => .done (.next ((s.setDirty false).advancePc.appendLog s.pc s.opcodeAtPc))

/-- The PC a test fetches from: PC itself, but made even where an odd PC would fault. Log 8. -/
def State.fetchablePc (s : State) : Word :=
  match s.params.oddPc with
  | .fetch => s.pc
  | .fault => s.pc &&& 0xFFFE

/-- The opcode `w` stored at PC, MODE Running and the core to move next: what running exactly that opcode takes. Log 8. -/
def State.placeOpcode (s : State) (w : Word) : State :=
  let t := s.setPc s.fetchablePc
  (((t.setByte (t.pc.toNat % 4096) (highByte w)).setByte ((t.pc.toNat + 1) % 4096) (lowByte w)).setMode
    .running).setSchedule []

end Sys2Proof.Machine
end

