-- ==== Sys2Proof/Machine/Agents.lean ====
section
/-! DEFINITION. The steps of the four agents (40_cycle.md R90): core, timer tick, keypad, host; and whose turn it is. -/

namespace Sys2Proof.Machine

/-- Cycle(): one whole fetch, decode and execute (R91, R92). -/
def State.cycle (s : State) : Result :=
  match s.fetch with
  | .execute i t => exec i t
  | .done r => r

/-- A core step: a cycle while Running, one keypad sample while waiting for a key (R90, R101), none in a final mode (R38). -/
def State.coreStep (s : State) : Result :=
  match s.mode with
  | .running => s.cycle
  | .waitingForKey x prev => .next (s.waitStep x prev)
  | .halted c => .fault (.halted c)
  | .terminated => .fault .terminated

/-- A timer one closer to 0; a timer at 0 stays 0 (R99). -/
def countDown (b : Byte) : Byte := if b = 0 then 0 else b - 1

/-- Tick(): each nonzero timer is decremented (R99). -/
def State.tick (s : State) : State := (s.setDt (countDown s.dt)).setSt (countDown s.st)

/-- One agent's step (R90). -/
def State.takeMove (s : State) (m : Move) : Result :=
  match m with
  | .core => s.coreStep
  | .tick => .next s.tick
  | .keys now => .next (s.setKey now)
  | .cancel => .next (s.setMode .terminated)

/-- The next step of the machine: the next move of the schedule, or a core step when none is listed (R90, log 1). -/
def State.nextMove (s : State) : Result :=
  match s.schedule with
  | [] => s.coreStep
  | m :: ms => (s.setSchedule ms).takeMove m

/-- One step of the machine: no agent steps in a final mode (R38, R103, R104; logs 9 and 10). -/
def State.turn (s : State) : Result :=
  match s.mode with
  | .halted c => .fault (.halted c)
  | .terminated => .fault .terminated
  | .running => s.nextMove
  | .waitingForKey _ _ => s.nextMove

end Sys2Proof.Machine
end

