-- ==== Sys2Proof/Machine/Load.lean ====
section
/-! DEFINITION. Program load, an act of the host before the first cycle (20_memory.md R66; 70_reset_and_hazards.md R249). It
is no agent's step: it is applied to the state after reset. Log 8. -/

namespace Sys2Proof.Machine

/-- The bytes placed at `a`, `a + 1`, .. of memory, P_LOW_WRITE not consulted (R66). -/
def State.placeBytes (s : State) (a : Nat) : List Byte → State
  | [] => s
  | b :: bs => (s.setByte a b).placeBytes (a + 1) bs

/-- The program load: MEM[0x200 + i] <- rom[i], or the fatal InvalidProgram when the image is longer than 3584 bytes, with
memory left as it was (R66, R213; the memory contents are then not defined by the document, log 9). -/
def State.loadProgram (s : State) (rom : List Byte) : State :=
  if rom.length ≤ 3584 then s.placeBytes 0x200 rom else s.setMode (.halted (.invalidProgram rom.length))

/-- The machine before its first cycle: reset under the parameters `p`, then the program load (R240, R249). -/
def State.boot (p : Params) (rom : List Byte) : State := (State.resetWith p).loadProgram rom

end Sys2Proof.Machine
end

