-- ==== Sys2Proof/Machine/Outputs.lean ====
section
/-! DEFINITION. The block's outputs that are computed from the state (10_state.md R34, R45; 60_exceptions.md R210). -/

namespace Sys2Proof.Machine

/-- The code of a fatal cause (60_exceptions.md R210, decision D21). Code 4, UnknownOpcode, is not fatal. -/
def Cause.code (c : Cause) : Nat :=
  match c with
  | .stackOverflow _ => 1
  | .stackUnderflow _ => 2
  | .invalidProgram _ => 3
  | .keyIndexOutOfRange _ _ => 5
  | .protectedWrite _ _ => 6
  | .misalignedFetch _ => 7

/-- `fault_cause`: the code of the fault taken, 0 for none (R210). -/
def State.faultCause (s : State) : Nat :=
  match s.mode with
  | .halted c => c.code
  | .running => 0
  | .waitingForKey _ _ => 0
  | .terminated => 0

/-- `fault`: asserted once a fatal fault was taken (R218). -/
def State.faultAsserted (s : State) : Bool := s.faultCause != 0

/-- SOUND_ACTIVE = (ST > 0) (10_state.md R34). -/
def State.soundActive (s : State) : Bool := decide (0 < s.st.toNat)

/-- The framebuffer read port: the pixel at row r, column c, with wrap (10_state.md R36, R45). -/
def State.pixel (s : State) (r c : Nat) : Bool := Framebuffer.pixel s.fb r c

end Sys2Proof.Machine
end

