-- ==== Sys2Proof/Machine/Step.lean ====
section
/-! DEFINITION. One step of the machine, and where a step finds its next instruction. -/

namespace Sys2Proof.Machine

/-- One step of one agent (40_cycle.md R90, R91). -/
def step (s : State) : Host.Outcome State Fault Refusal := Sys2Proof.Machine.State.turn s

/-- `s` with the opcode of the table stored where `step` fetches its next instruction, so that the next step runs exactly
it: it stands for the program load (log 8). -/
def State.withFetchWord (s : State) (nbits w : Nat) : State := s.placeOpcode (tableOpcode nbits w)

end Sys2Proof.Machine
end

