-- ==== Sys2Proof/Safety.lean ====
section
/-! DEFINITION. The terms claims use: the invariants of a run, whose turn it is, and what an instruction may change (its
footprint). -/

namespace Sys2Proof.Machine

/-- What every state of a run meets: memory in canonical form, and bits 15:12 of I zero (10_state.md R24). -/
structure State.Inv (s : State) : Prop where
  memory : Memory.wf s.params.font s.mem
  index  : s.i.toNat ≤ 0xFFF

/-- The region below 0x200 holds its reset contents: the font, then zero (20_memory.md R54). -/
def State.LowIntact (s : State) : Prop := ∀ a < 0x200, s.memRead a = Memory.resetByte s.params.font a

/-- The core moves next, and `rest` are the moves after that (40_cycle.md R90; log 1). -/
def State.coreNext (s : State) (rest : List Move) : Prop :=
  (s.schedule = [] ∧ rest = []) ∨ s.schedule = .core :: rest

/-- Some agent can step: MODE is neither Halted nor Terminated (10_state.md R38). -/
def State.live (s : State) : Prop := s.mode = .running ∨ ∃ x prev, s.mode = .waitingForKey x prev

/-- The state an instruction may write (40_cycle.md R96): registers and byte addresses by list, the rest by flag. -/
structure Footprint where
  v       : List RegIdx := []
  i       : Bool := false
  pc      : Bool := false
  sp      : Bool := false
  stack   : Bool := false
  dt      : Bool := false
  st      : Bool := false
  mem     : List Nat := []
  fb      : Bool := false
  mode    : Bool := false
  fbDirty : Bool := false
  draws   : Bool := false

/-- `t` has every register, byte, pixel and field of `s` outside the footprint. KEY, LOG, the parameters and the schedule
are outside every footprint: no instruction writes them. -/
def unchangedOutside (f : Footprint) (s t : State) : Prop :=
  (∀ j, j ∉ f.v → t.getV j = s.getV j) ∧
  (f.i = false → t.i = s.i) ∧
  (f.pc = false → t.pc = s.pc) ∧
  (f.sp = false → t.sp = s.sp) ∧
  (f.stack = false → t.stack = s.stack) ∧
  (f.dt = false → t.dt = s.dt) ∧
  (f.st = false → t.st = s.st) ∧
  (∀ a, a % 4096 ∉ f.mem → t.memRead a = s.memRead a) ∧
  (f.fb = false → ∀ r c, t.pixel r c = s.pixel r c) ∧
  (f.mode = false → t.mode = s.mode) ∧
  (f.fbDirty = false → t.fbDirty = s.fbDirty) ∧
  (f.draws = false → t.draws = s.draws) ∧
  t.key = s.key ∧ t.log = s.log ∧ t.params = s.params ∧ t.schedule = s.schedule

/-- The registers V0..Vx. -/
def regsUpTo (x : RegIdx) : List RegIdx := (List.finRange 16).filter fun j => decide (j ≤ x)

/-- The byte addresses I..I+n-1, wrapped (20_memory.md R51). -/
def addrsFrom (base : Word) (n : Nat) : List Nat := (List.range n).map (byteAddr base)

/-- What each instruction may write, read from the spec's rules (10_state.md R22, R23, R24, R26, R29, R33, R34, R35, R38,
R40; 20_memory.md R54). MODE is in the footprint of the instructions that can take a fatal fault. -/
def footprint (ins : Instr) (s : State) : Footprint :=
  match ins with
  | .cls => { fb := true, fbDirty := true }
  | .ret => { pc := true, sp := true, mode := true }
  | .jp _ => { pc := true }
  | .call _ => { pc := true, sp := true, stack := true, mode := true }
  | .seByte _ _ => { pc := true }
  | .sneByte _ _ => { pc := true }
  | .seReg _ _ _ => { pc := true }
  | .ldByte x _ => { v := [x] }
  | .addByte x _ => { v := [x] }
  | .ldReg x _ => { v := [x] }
  | .orReg x _ => { v := [x] }
  | .andReg x _ => { v := [x] }
  | .xorReg x _ => { v := [x] }
  | .addReg x _ => { v := [x, vf] }
  | .subReg x _ => { v := [x, vf] }
  | .shr x _ => { v := [x, vf] }
  | .subnReg x _ => { v := [x, vf] }
  | .shl x _ => { v := [x, vf] }
  | .sneReg _ _ _ => { pc := true }
  | .ldI _ => { i := true }
  | .jpV0 _ => { pc := true }
  | .rnd x _ => { v := [x], draws := true }
  | .drw _ _ _ => { v := [vf], fb := true, fbDirty := true }
  | .skp _ => { pc := true, mode := true }
  | .sknp _ => { pc := true, mode := true }
  | .ldVxDt x => { v := [x] }
  | .ldVxK _ => { mode := true }
  | .ldDtVx _ => { dt := true }
  | .ldStVx _ => { st := true }
  | .addI _ => { i := true }
  | .ldF _ => { i := true }
  | .ldB _ => { mem := addrsFrom s.i 3, mode := true }
  | .storeRegs x => { mem := addrsFrom s.i (x.val + 1), mode := true, i := s.params.ldstI == .increment }
  | .loadRegs x => { v := regsUpTo x, i := s.params.ldstI == .increment }

/-- A set bit of the sprite DRW Vx, Vy, n draws from `s` lands on the pixel at row r, column c (41_display.md R111, R112):
row k of the sprite is the byte at I + k, and its bit 7 - j is column j. -/
def spriteSets (s : State) (x y : RegIdx) (n : Fin 16) (r c : Nat) : Prop :=
  ∃ k < n.val, ∃ j < 8, (s.memRead (byteAddr s.i k)).getLsbD (7 - j) = true ∧
    r % 32 = ((s.getV y).toNat + k) % 32 ∧ c % 64 = ((s.getV x).toNat + j) % 64

/-- `a` is the first of the `n` byte addresses from I that lies below 0x200 (44_index_memory.md R173, R174). -/
def firstProtected (s : State) (n a : Nat) : Prop :=
  ∃ k < n, byteAddr s.i k = a ∧ a < 0x200 ∧ ∀ j < k, 0x200 ≤ byteAddr s.i j

/-- No byte of a store of `n` bytes at I is refused: P_LOW_WRITE is not `fault`, or every address is 0x200 or above. -/
def storeAllowed (s : State) (n : Nat) : Prop :=
  s.params.lowWrite = .fault → ∀ k < n, 0x200 ≤ byteAddr s.i k

/-- What the byte at address `a` reads as after `b` was stored there: `b`, or the old byte where P_LOW_WRITE = `ignore`
drops it (20_memory.md R53). -/
def storedByte (s : State) (a : Nat) (b : Byte) : Byte :=
  if 0x200 ≤ a ∨ s.params.lowWrite = .write then b else s.memRead a

/-- Key k is 0 in `prev` and 1 in `now` (45_keys_timers.md R195). -/
def pressedSince (prev now : Word) (k : RegIdx) : Prop := prev.getLsbD k.val = false ∧ now.getLsbD k.val = true

/-- The core is about to run a cycle whose fetch does not fault: MODE Running, the core moves next, and PC is even where
P_ODD_PC = `fault` (40_cycle.md R92, R94). -/
def readyToFetch (s : State) (rest : List Move) : Prop :=
  s.mode = .running ∧ s.coreNext rest ∧ (s.params.oddPc = .fault → s.pc.toNat % 2 = 0)

/-- The two bytes at PC and PC + 1, the first as the high byte (20_memory.md R56). -/
def fetchedOpcode (s : State) : Word := s.memRead s.pc.toNat ++ s.memRead (s.pc.toNat + 1)

/-- The instruction is a conditional skip (42_control_flow.md R128). -/
def isSkip (ins : Instr) : Prop :=
  (∃ x nn, ins = .seByte x nn ∨ ins = .sneByte x nn) ∨ (∃ x y n, ins = .seReg x y n ∨ ins = .sneReg x y n) ∨
    ∃ x, ins = .skp x ∨ ins = .sknp x

/-- VF is a register this instruction names as its destination (10_state.md R22). -/
def namesVf (ins : Instr) : Prop :=
  (∃ nn, ins = .ldByte vf nn ∨ ins = .addByte vf nn ∨ ins = .rnd vf nn) ∨
    (∃ y, ins = .ldReg vf y ∨ ins = .orReg vf y ∨ ins = .andReg vf y ∨ ins = .xorReg vf y) ∨
    ins = .ldVxDt vf ∨ ins = .loadRegs vf

/-- The instruction writes VF as a side effect: 8xy4, 8xy5, 8xy6, 8xy7, 8xyE, Dxyn (10_state.md R22). -/
def flagsVf (ins : Instr) : Prop :=
  (∃ x y, ins = .addReg x y ∨ ins = .subReg x y ∨ ins = .subnReg x y) ∨ (∃ x y, ins = .shr x y ∨ ins = .shl x y) ∨
    ∃ x y n, ins = .drw x y n

/-- 1 if the condition holds, else 0: the value VF takes as a flag (10_state.md R22). -/
def bit (b : Bool) : Byte := if b then 1 else 0

end Sys2Proof.Machine
end

