-- ==== Sys2Proof/Certificates/Slice0/Obligations.lean ====
section
/-! DEFINITION. The statements for the provers: what the numbered rules of the spec say this machine does. -/

open Sys2Proof Sys2Proof.Machine

/-! ### Encoding -/

/-- 30_encoding.md R71, R75: decoding the encoding of a well-formed instruction gives it back, every operand at every
value. -/
def Obligations.DecodeOfEncode : Prop :=
  ∀ (d : Decode59) (ins : Instr), ins.wellFormed d = true → decode d (encode ins) = some ins

/-- 30_encoding.md R71, R72, R75: an opcode that decodes is the encoding of the instruction it decodes to, which is well
formed. -/
def Obligations.EncodeOfDecode : Prop :=
  ∀ (d : Decode59) (w : Word) (ins : Instr), decode d w = some ins → encode ins = w ∧ ins.wellFormed d = true

/-- 30_encoding.md R75: an opcode decodes exactly if a row of the table matches it, to that row's instruction, and no two
rows match one opcode. -/
def Obligations.OneRowMatchesEachOpcode : Prop :=
  ∀ (d : Decode59) (w : Word),
    (decode d w = none ↔ ∀ r ∈ opcodeRows d, rowMatches w r = false) ∧
    (∀ ins, decode d w = some ins → ∃ r, (opcodeRows d)[ins.rowIndex]? = some r ∧ rowMatches w r = true) ∧
    ((opcodeRows d).filter (rowMatches w)).length ≤ 1

/-- 30_encoding.md R77 (derived there): the Unknown opcodes under the default P_DECODE_5_9, and those `strict` adds. -/
def Obligations.UnknownOpcodesAreExactlyR77 : Prop :=
  ∀ w : Word,
    let op := w.toNat / 4096
    let n := w.toNat % 16
    let nn := w.toNat % 256
    (decode .highNibble w = none ↔
      (op = 0 ∧ w.toNat ≠ 0x00E0 ∧ w.toNat ≠ 0x00EE) ∨
      (op = 8 ∧ n ∈ [0x8, 0x9, 0xA, 0xB, 0xC, 0xD, 0xF]) ∨
      (op = 0xE ∧ nn ∉ [0x9E, 0xA1]) ∨
      (op = 0xF ∧ nn ∉ [0x07, 0x0A, 0x15, 0x18, 0x1E, 0x29, 0x33, 0x55, 0x65])) ∧
    (decode .strict w = none ↔ decode .highNibble w = none ∨ ((op = 5 ∨ op = 9) ∧ n ≠ 0))

/-- 30_encoding.md R71, R75 (log 13): nine words written out from rows of the table decode to the instruction of their row,
and a tenth, which matches no row, does not decode. -/
def Obligations.TableWordsDecode : Prop :=
  decode .highNibble 0x00E0 = some .cls ∧ decode .highNibble 0x00EE = some .ret ∧
  decode .highNibble 0x1ABC = some (.jp 0xABC) ∧ decode .highNibble 0x3005 = some (.seByte 0 5) ∧
  decode .highNibble 0x8014 = some (.addReg 0 1) ∧ decode .highNibble 0xA300 = some (.ldI 0x300) ∧
  decode .highNibble 0xD125 = some (.drw 1 2 5) ∧ decode .highNibble 0xE5A1 = some (.sknp 5) ∧
  decode .highNibble 0xF30A = some (.ldVxK 3) ∧ decode .highNibble 0x8128 = none

/-! ### The step and the agents -/

/-- 40_cycle.md R92, R93: a core step at a state ready to fetch whose two bytes at PC decode to an instruction executes
it, with FB_DIRTY cleared, PC advanced by 2 and the move taken off the schedule. -/
def Obligations.StepRunsDecodedInstruction : Prop :=
  ∀ (s : State) (rest : List Move) (ins : Instr), readyToFetch s rest →
    decode s.params.decode59 (fetchedOpcode s) = some ins →
    step s = exec ins { s with fbDirty := false, pc := s.pc + 2, schedule := rest }

/-- 60_exceptions.md R214: an Unknown opcode appends its address and itself to LOG and has no other effect; PC is a + 2. -/
def Obligations.UnknownOpcodeIsLoggedNoOp : Prop :=
  ∀ (s : State) (rest : List Move), readyToFetch s rest → decode s.params.decode59 (fetchedOpcode s) = none →
    step s = .next { s with
      fbDirty := false, pc := s.pc + 2, schedule := rest, log := s.log ++ [⟨s.pc, fetchedOpcode s⟩] }

/-- 60_exceptions.md R217, 40_cycle.md R94 (the parameter P_ODD_PC of decision D7): under `fault` a cycle at an odd PC is
fatal, MisalignedFetch with PC recorded, and PC keeps the odd value. -/
def Obligations.OddPcFaultsUnderPolicy : Prop :=
  ∀ (s : State) (rest : List Move), s.mode = .running → s.coreNext rest → s.params.oddPc = .fault →
    s.pc.toNat % 2 = 1 →
    ∃ t, step s = .next t ∧ t.mode = .halted (.misalignedFetch s.pc) ∧ t.pc = s.pc

/-- 40_cycle.md R99, R100: a tick decrements each nonzero timer by one, leaves a timer at 0, and changes nothing else, also
while waiting for a key. -/
def Obligations.TickDecrementsTimers : Prop :=
  ∀ (s : State) (rest : List Move), s.live → s.schedule = .tick :: rest →
    ∃ t, step s = .next t ∧ t.dt.toNat = s.dt.toNat - 1 ∧ t.st.toNat = s.st.toNat - 1 ∧
      t.soundActive = decide (1 < s.st.toNat) ∧
      unchangedOutside { dt := true, st := true } { s with schedule := rest } t

/-- 40_cycle.md R102, R103: the keypad may become any value and the host may cancel before any step, also while waiting
for a key; nothing else changes. -/
def Obligations.KeypadAndCancelMoves : Prop :=
  ∀ (s : State) (rest : List Move), s.live →
    (∀ now, s.schedule = .keys now :: rest → step s = .next { s with key := now, schedule := rest }) ∧
    (s.schedule = .cancel :: rest → step s = .next { s with mode := .terminated, schedule := rest })

/-- 40_cycle.md R103, R104; 10_state.md R38: Halted and Terminated are final, no step of any agent follows. -/
def Obligations.FinalModesHaveNoStep : Prop :=
  ∀ s : State, ¬ s.live →
    (∀ t, step s ≠ .next t) ∧ (∀ c, s.mode = .halted c → step s = .fault (.halted c)) ∧
    (s.mode = .terminated → step s = .fault .terminated)

/-- 45_keys_timers.md R195, 40_cycle.md R101: a wait step that sees no newly pressed key keeps waiting with the new sample;
nothing else changes. -/
def Obligations.KeyWaitGoesOnWithoutNewKey : Prop :=
  ∀ (s : State) (rest : List Move) (x : RegIdx) (prev : Word), s.mode = .waitingForKey x prev → s.coreNext rest →
    (∀ k, ¬ pressedSince prev s.key k) →
    step s = .next { s with mode := .waitingForKey x s.key, schedule := rest }

/-- 45_keys_timers.md R195, 40_cycle.md R101: a wait step that sees a newly pressed key stores the index of one such key in
V[x] and resumes; PC and all else are unchanged. Which key, where several are newly pressed, is free (log 7). -/
def Obligations.KeyWaitEndsWithNewKey : Prop :=
  ∀ (s : State) (rest : List Move) (x : RegIdx) (prev : Word), s.mode = .waitingForKey x prev → s.coreNext rest →
    (∃ k, pressedSince prev s.key k) →
    ∃ t k, step s = .next t ∧ pressedSince prev s.key k ∧ (t.getV x).toNat = k.val ∧ t.mode = .running ∧
      t.pc = s.pc ∧
      unchangedOutside { v := [x], mode := true, draws := true } { s with schedule := rest } t

/-- 40_cycle.md R105: at a self-loop (`1nnn` at PC with nnn = PC) a core step changes nothing but FB_DIRTY. -/
def Obligations.SelfLoopChangesNothingButDirty : Prop :=
  ∀ (s : State) (rest : List Move) (nnn : BitVec 12), readyToFetch s rest →
    decode s.params.decode59 (fetchedOpcode s) = some (.jp nnn) → nnn.toNat = s.pc.toNat →
    step s = .next { s with fbDirty := false, schedule := rest }

/-- 42_control_flow.md R128: over its whole cycle a skip instruction at address a leaves PC = a + 2 or a + 4 (mod 65536),
never any other amount. -/
def Obligations.SkipCycleAdvancesTwoOrFour : Prop :=
  ∀ (s : State) (rest : List Move) (ins : Instr), readyToFetch s rest →
    decode s.params.decode59 (fetchedOpcode s) = some ins → isSkip ins →
    ∃ t, step s = .next t ∧
      (t.pc.toNat = (s.pc.toNat + 2) % 65536 ∨ t.pc.toNat = (s.pc.toNat + 4) % 65536)

/-! ### Invariants and whole-machine rules -/

/-- 10_state.md R24; 70_reset_and_hazards.md R241, R246: the invariants hold at reset, whatever the parameters. -/
def Obligations.ResetMeetsInv : Prop :=
  ∀ p : Params, (State.resetWith p).Inv ∧ (State.resetWith p).LowIntact

/-- 10_state.md R24: every step of every agent keeps memory in canonical form and bits 15:12 of I zero. -/
def Obligations.StepKeepsInv : Prop :=
  ∀ s t : State, s.Inv → step s = .next t → t.Inv

/-- 20_memory.md R53, R54; 70_reset_and_hazards.md R241: unless P_LOW_WRITE = `write`, no step changes a byte below 0x200:
the font is never mutated. -/
def Obligations.StepKeepsFontRegion : Prop :=
  ∀ s t : State, s.params.lowWrite ≠ .write → s.LowIntact → step s = .next t → t.LowIntact

/-- 20_memory.md R50 with log 17: two memories in canonical form that read the same at every address are the same list. -/
def Obligations.CanonicalMemoriesWithSameReadsAreEqual : Prop :=
  ∀ (font : Font) (m m' : List Host.Cell), Memory.wf font m → Memory.wf font m' →
    (∀ a < 4096, Memory.read font m a = Memory.read font m' a) → m = m'

/-- 70_reset_and_hazards.md R241 to R245, 20_memory.md R54 (the font's placement, derived there), R55: PC, SP, the timers, the
framebuffer and memory after reset, for every P_FONT. -/
def Obligations.ResetState : Prop :=
  ∀ p : Params,
    let s := State.resetWith p
    s.pc = 0x200 ∧ s.sp = 0 ∧ s.dt = 0 ∧ s.st = 0 ∧ s.soundActive = false ∧
    (∀ k j, (hk : k < 16) → (hj : j < 5) → s.memRead (5 * k + j) = p.font[k][j]) ∧
    (∀ a, 80 ≤ a → a < 4096 → s.memRead a = 0) ∧
    (∀ r c, s.pixel r c = false)

/-- 70_reset_and_hazards.md R246, R248 (spec's decisions D4, D24; log 3): V and I after reset under P_RESET_REGS = `zero`, the
default, I of 12 bits under `arbitrary` too, and the hidden and output state. -/
def Obligations.ResetRegisters : Prop :=
  ∀ p : Params,
    let s := State.resetWith p
    (p.resetRegs = .zero → (∀ j, s.getV j = 0) ∧ s.i = 0) ∧ s.i.toNat ≤ 0xFFF ∧
    s.mode = .running ∧ s.fbDirty = false ∧ s.log = [] ∧ s.faultAsserted = false ∧ s.faultCause = 0

/-- 60_exceptions.md R210, R218 (spec's decision D21): `fault` is asserted exactly in a Halted state, and `fault_cause` is the
cause's code, 0 for none. -/
def Obligations.FaultOutputsReportCause : Prop :=
  ∀ s : State,
    (s.faultAsserted = true ↔ ∃ c, s.mode = .halted c) ∧
    (∀ a, s.mode = .halted (.stackOverflow a) → s.faultCause = 1) ∧
    (∀ a, s.mode = .halted (.stackUnderflow a) → s.faultCause = 2) ∧
    (∀ n, s.mode = .halted (.invalidProgram n) → s.faultCause = 3) ∧
    (∀ a b, s.mode = .halted (.keyIndexOutOfRange a b) → s.faultCause = 5) ∧
    (∀ a b, s.mode = .halted (.protectedWrite a b) → s.faultCause = 6) ∧
    (∀ a, s.mode = .halted (.misalignedFetch a) → s.faultCause = 7) ∧
    ((∀ c, s.mode ≠ .halted c) → s.faultCause = 0)

/-- 20_memory.md R66; 70_reset_and_hazards.md R249: the program load copies an image of at most 3584 bytes to 0x200 and
changes nothing else of the reset state. -/
def Obligations.ProgramLoadCopiesImage : Prop :=
  ∀ (p : Params) (rom : List Byte), rom.length ≤ 3584 →
    let t := State.boot p rom
    (∀ k, (h : k < rom.length) → t.memRead (0x200 + k) = rom[k]) ∧
    (∀ a < 4096, a < 0x200 ∨ 0x200 + rom.length ≤ a → t.memRead a = (State.resetWith p).memRead a) ∧
    t = { State.resetWith p with mem := t.mem } ∧ t.Inv ∧ t.LowIntact

/-- 60_exceptions.md R213: an image longer than 3584 bytes is refused at load, InvalidProgram with its length, and no cycle
runs. -/
def Obligations.OversizeImageIsRefused : Prop :=
  ∀ (p : Params) (rom : List Byte), 3584 < rom.length →
    (State.boot p rom).mode = .halted (.invalidProgram rom.length) ∧
    step (State.boot p rom) = .fault (.halted (.invalidProgram rom.length))

/-- 70_reset_and_hazards.md R250 (derived there): the first instruction executed is the first two bytes of the image. -/
def Obligations.FirstInstructionIsFirstTwoBytes : Prop :=
  ∀ (p : Params) (hi lo : Byte) (rom : List Byte) (ins : Instr), rom.length ≤ 3582 →
    decode p.decode59 (hi ++ lo) = some ins →
    step (State.boot p (hi :: lo :: rom)) = exec ins { State.boot p (hi :: lo :: rom) with pc := 0x202 }

/-- 40_cycle.md R96 (spec's decision D17) with 10_state.md R23: an instruction writes nothing outside its footprint: every
other register, timer, byte, pixel and stack entry keeps its value, whatever the state. -/
def Obligations.InstructionsStayInFootprint : Prop :=
  ∀ (ins : Instr) (s t : State), exec ins s = .next t → unchangedOutside (footprint ins s) s t

/-- 10_state.md R22: an instruction that neither writes VF as a side effect nor names VF as its destination leaves VF
unchanged, and the flag writers complete from every state. -/
def Obligations.VfWrittenOnlyByFlagWriters : Prop :=
  (∀ (ins : Instr) (s t : State), exec ins s = .next t → ¬ flagsVf ins → ¬ namesVf ins → t.getV vf = s.getV vf) ∧
  (∀ (ins : Instr) (s : State), flagsVf ins → ∃ t, exec ins s = .next t ∧
    unchangedOutside (footprint ins s) s t ∧ vf ∈ (footprint ins s).v)

/-- 60_exceptions.md R210, R211, R212, R215, R216, R219: an instruction takes a fatal fault only for the causes the table
gives it, with the value the table records, and then it has written nothing else (that the state of a Halted machine is the
one before the instruction is the model's reading, log 9). -/
def Obligations.FatalCausesAreExactlyTheTable : Prop :=
  ∀ (ins : Instr) (s t : State) (c : Cause), exec ins s = .next t → s.live → t.mode = .halted c →
    unchangedOutside { mode := true } s t ∧
    ((∃ nnn, ins = .call nnn ∧ s.sp.val = 16 ∧ c = .stackOverflow (s.pc - 2)) ∨
     (ins = .ret ∧ s.sp.val = 0 ∧ c = .stackUnderflow (s.pc - 2)) ∨
     (∃ x, (ins = .skp x ∨ ins = .sknp x) ∧ 15 < (s.getV x).toNat ∧
       c = .keyIndexOutOfRange (s.pc - 2) (s.getV x)) ∨
     (∃ x n a, (ins = .ldB x ∧ n = 3 ∨ ins = .storeRegs x ∧ n = x.val + 1) ∧ s.params.lowWrite = .fault ∧
       firstProtected s n a ∧ c = .protectedWrite (s.pc - 2) a))

/-- 10_state.md R38, 60_exceptions.md R228: how a step can change MODE. A wait begins only from Running, with the keypad
sampled then; it ends only with a newly pressed key or by cancel; a fault is taken only from Running. -/
def Obligations.ModeChangesOnlyAsR38Says : Prop :=
  ∀ s t : State, step s = .next t → s.live ∧
    (t.mode = s.mode ∨
     (s.mode = .running ∧ ∃ x, t.mode = .waitingForKey x s.key) ∨
     (s.mode = .running ∧ ∃ c, t.mode = .halted c) ∨
     (∃ x prev, s.mode = .waitingForKey x prev ∧
       (t.mode = .waitingForKey x s.key ∨ (t.mode = .running ∧ ∃ k, pressedSince prev s.key k))) ∨
     (t.mode = .terminated ∧ ∃ ms, s.schedule = .cancel :: ms))

/-- 10_state.md R40, 40_cycle.md R98: FB_DIRTY is 1 after a cycle whose instruction was CLS or DRW and 0 after any other
cycle. -/
def Obligations.DirtyExactlyAfterClsOrDrw : Prop :=
  ∀ (s t : State) (rest : List Move), s.mode = .running → s.coreNext rest → step s = .next t →
    (t.fbDirty = true ↔
      (s.params.oddPc = .fault → s.pc.toNat % 2 = 0) ∧
      (decode s.params.decode59 (fetchedOpcode s) = some .cls ∨
        ∃ x y n, decode s.params.decode59 (fetchedOpcode s) = some (.drw x y n)))

/-- 10_state.md R41, R42; 00_scope.md R8: no step changes the parameters, LOG only grows at its end, and KEY changes only
by a move of the keypad. -/
def Obligations.StepKeepsParamsAndOnlyExtendsLog : Prop :=
  ∀ s t : State, step s = .next t →
    t.params = s.params ∧ (∃ new, t.log = s.log ++ new ∧ new.length ≤ 1) ∧
    (t.key = s.key ∨ ∃ now ms, s.schedule = .keys now :: ms ∧ t.key = now)

/-! ### Display -/

/-- 41_display.md R110: CLS. -/
def Obligations.ClsClearsDisplay : Prop :=
  ∀ s : State, ∃ t, exec .cls s = .next t ∧ (∀ r c, t.pixel r c = false) ∧ t.fbDirty = true ∧
    unchangedOutside { fb := true, fbDirty := true } s t

/-- 41_display.md R111, R112, R113: DRW toggles exactly the pixels its set bits land on, with wrap, from coordinates
latched before VF is written; VF is 1 if one of them was set, else 0. -/
def Obligations.DrwXorsSpriteAndReportsCollision : Prop :=
  ∀ (x y : RegIdx) (n : Fin 16) (s : State), ∃ t, exec (.drw x y n) s = .next t ∧
    (∀ r c, t.pixel r c = true ↔ ¬ (s.pixel r c = true ↔ spriteSets s x y n r c)) ∧
    ((∃ r c, spriteSets s x y n r c ∧ s.pixel r c = true) → t.getV vf = 1) ∧
    ((∀ r c, spriteSets s x y n r c → s.pixel r c = false) → t.getV vf = 0) ∧
    t.fbDirty = true ∧
    unchangedOutside { v := [vf], fb := true, fbDirty := true } s t

/-- 41_display.md R111 (pseudocode; example W6): drawing the same sprite twice at the same place restores every pixel, and
the second draw reports a collision exactly if a set bit landed on a pixel that was clear at the start (log 18). -/
def Obligations.DrwTwiceRestoresDisplay : Prop :=
  ∀ (x y : RegIdx) (n : Fin 16) (s : State), x ≠ vf → y ≠ vf →
    ∃ t u, exec (.drw x y n) s = .next t ∧ exec (.drw x y n) t = .next u ∧
      (∀ r c, u.pixel r c = s.pixel r c) ∧
      (u.getV vf = 1 ↔ ∃ r c, spriteSets s x y n r c ∧ s.pixel r c = false)

/-! ### Control transfer -/

/-- 42_control_flow.md R120, 10_state.md R32, 60_exceptions.md R212: RET sets PC to the address at the top of the stack, not
to SP itself, and lowers the depth; at depth 0 it is fatal, StackUnderflow with the address of the RET, and nothing is
popped. -/
def Obligations.RetPopsReturnAddress : Prop :=
  ∀ s : State,
    (∀ h : 0 < s.sp.val, ∃ t, exec .ret s = .next t ∧ t.pc = s.stack[s.sp.val - 1] ∧ t.sp.val = s.sp.val - 1 ∧
      unchangedOutside { pc := true, sp := true } s t) ∧
    (s.sp.val = 0 → ∃ t, exec .ret s = .next t ∧ t.mode = .halted (.stackUnderflow (s.pc - 2)) ∧ t.sp = s.sp ∧
      t.pc = s.pc)

/-- 42_control_flow.md R122, 10_state.md R31, 60_exceptions.md R211: CALL pushes the address after it and jumps; at depth 16
it is fatal, StackOverflow with the address of the CALL, nothing is pushed and PC is not set to nnn. -/
def Obligations.CallPushesAndJumps : Prop :=
  ∀ (nnn : BitVec 12) (s : State),
    (s.sp.val < 16 → ∃ t, exec (.call nnn) s = .next t ∧ t.pc.toNat = nnn.toNat ∧ t.sp.val = s.sp.val + 1 ∧
      (∀ k, (hk : k < 16) → t.stack[k] = if k = s.sp.val then s.pc else s.stack[k]) ∧
      unchangedOutside { pc := true, sp := true, stack := true } s t) ∧
    (s.sp.val = 16 → ∃ t, exec (.call nnn) s = .next t ∧ t.mode = .halted (.stackOverflow (s.pc - 2)) ∧ t.sp = s.sp ∧
      t.stack = s.stack ∧ t.pc = s.pc)

/-- 42_control_flow.md R120, R122 (example W8): RET after CALL, with any instructions between that leave the stack alone,
returns to the instruction after the CALL at the old depth. -/
def Obligations.RetAfterCallReturns : Prop :=
  ∀ (nnn : BitVec 12) (s t u : State), s.sp.val < 16 → exec (.call nnn) s = .next t → u.stack = t.stack →
    u.sp = t.sp → ∃ w, exec .ret u = .next w ∧ w.pc = s.pc ∧ w.sp = s.sp

/-- 42_control_flow.md R121, R127: JP nnn and JP V0, nnn; the register is always V0, the sum wraps at 12 bits. -/
def Obligations.JumpsSetPc : Prop :=
  ∀ (nnn : BitVec 12) (s : State),
    (∃ t, exec (.jp nnn) s = .next t ∧ t.pc.toNat = nnn.toNat ∧ unchangedOutside { pc := true } s t) ∧
    (∃ t, exec (.jpV0 nnn) s = .next t ∧ t.pc.toNat = (nnn.toNat + (s.getV 0).toNat) % 4096 ∧
      unchangedOutside { pc := true } s t)

/-- 42_control_flow.md R123, R124: SE and SNE Vx, byte. -/
def Obligations.ByteSkipsCompare : Prop :=
  ∀ (x : RegIdx) (nn : Byte) (s : State),
    (∃ t, exec (.seByte x nn) s = .next t ∧
      (s.getV x = nn → t.pc.toNat = (s.pc.toNat + 2) % 65536) ∧ (s.getV x ≠ nn → t.pc = s.pc) ∧
      unchangedOutside { pc := true } s t) ∧
    (∃ t, exec (.sneByte x nn) s = .next t ∧
      (s.getV x ≠ nn → t.pc.toNat = (s.pc.toNat + 2) % 65536) ∧ (s.getV x = nn → t.pc = s.pc) ∧
      unchangedOutside { pc := true } s t)

/-- 42_control_flow.md R125, R126: SE and SNE Vx, Vy; the n nibble is ignored. -/
def Obligations.RegisterSkipsCompare : Prop :=
  ∀ (x y : RegIdx) (n : BitVec 4) (s : State),
    (∃ t, exec (.seReg x y n) s = .next t ∧
      (s.getV x = s.getV y → t.pc.toNat = (s.pc.toNat + 2) % 65536) ∧ (s.getV x ≠ s.getV y → t.pc = s.pc) ∧
      unchangedOutside { pc := true } s t) ∧
    (∃ t, exec (.sneReg x y n) s = .next t ∧
      (s.getV x ≠ s.getV y → t.pc.toNat = (s.pc.toNat + 2) % 65536) ∧ (s.getV x = s.getV y → t.pc = s.pc) ∧
      unchangedOutside { pc := true } s t)

/-! ### Register and ALU -/

/-- 43_alu.md R141, R142, R143: LD Vx, byte; ADD Vx, byte, which wraps and sets no flag; LD Vx, Vy. -/
def Obligations.LoadsAndByteAdd : Prop :=
  ∀ (x y : RegIdx) (nn : Byte) (s : State),
    (∃ t, exec (.ldByte x nn) s = .next t ∧ t.getV x = nn ∧ unchangedOutside { v := [x] } s t) ∧
    (∃ t, exec (.addByte x nn) s = .next t ∧ (t.getV x).toNat = ((s.getV x).toNat + nn.toNat) % 256 ∧
      unchangedOutside { v := [x] } s t) ∧
    (∃ t, exec (.ldReg x y) s = .next t ∧ t.getV x = s.getV y ∧ unchangedOutside { v := [x] } s t)

/-- 43_alu.md R144, R145, R146: OR, AND, XOR bit by bit; VF is not reset. -/
def Obligations.LogicIsBitwise : Prop :=
  ∀ (x y : RegIdx) (s : State),
    (∃ t, exec (.orReg x y) s = .next t ∧
      (∀ k < 8, (t.getV x).getLsbD k = ((s.getV x).getLsbD k || (s.getV y).getLsbD k)) ∧
      unchangedOutside { v := [x] } s t) ∧
    (∃ t, exec (.andReg x y) s = .next t ∧
      (∀ k < 8, (t.getV x).getLsbD k = ((s.getV x).getLsbD k && (s.getV y).getLsbD k)) ∧
      unchangedOutside { v := [x] } s t) ∧
    (∃ t, exec (.xorReg x y) s = .next t ∧
      (∀ k < 8, (t.getV x).getLsbD k = ((s.getV x).getLsbD k ^^ (s.getV y).getLsbD k)) ∧
      unchangedOutside { v := [x] } s t)

/-- 43_alu.md R147: ADD Vx, Vy; VF is the carry of the sum before truncation, also when x = 0xF. -/
def Obligations.AddSetsSumAndCarry : Prop :=
  ∀ (x y : RegIdx) (s : State), ∃ t, exec (.addReg x y) s = .next t ∧
    t.getV vf = bit (decide (255 < (s.getV x).toNat + (s.getV y).toNat)) ∧
    (x ≠ vf → (t.getV x).toNat = ((s.getV x).toNat + (s.getV y).toNat) % 256) ∧
    unchangedOutside { v := [x, vf] } s t

/-- 43_alu.md R148: SUB Vx, Vy under P_VF_ORDER = `latched_table_order`, every x and y (for x = 0xF the difference stays),
and under every order when neither is 0xF. VF is 1 exactly if Vx is strictly greater. -/
def Obligations.SubSetsDifferenceAndNoBorrow : Prop :=
  ∀ (x y : RegIdx) (s : State), ∃ t, exec (.subReg x y) s = .next t ∧
    (s.params.vfOrder = .latchedTableOrder ∨ (x ≠ vf ∧ y ≠ vf) →
      (t.getV x).toNat = ((s.getV x).toNat + 256 - (s.getV y).toNat) % 256 ∧
      (x ≠ vf → t.getV vf = bit (decide ((s.getV y).toNat < (s.getV x).toNat)))) ∧
    unchangedOutside { v := [x, vf] } s t

/-- 43_alu.md R150: SUBN Vx, Vy, as SUB with the operands exchanged. -/
def Obligations.SubnSetsDifferenceAndNoBorrow : Prop :=
  ∀ (x y : RegIdx) (s : State), ∃ t, exec (.subnReg x y) s = .next t ∧
    (s.params.vfOrder = .latchedTableOrder ∨ (x ≠ vf ∧ y ≠ vf) →
      (t.getV x).toNat = ((s.getV y).toNat + 256 - (s.getV x).toNat) % 256 ∧
      (x ≠ vf → t.getV vf = bit (decide ((s.getV x).toNat < (s.getV y).toNat)))) ∧
    unchangedOutside { v := [x, vf] } s t

/-- 43_alu.md R149, R151: SHR and SHL of Vx by one, the y nibble ignored, VF the bit shifted out; under P_VF_ORDER =
`latched_table_order` every x (for x = 0xF the shifted value stays), under every order when x is not 0xF. -/
def Obligations.ShiftsSetResultAndBitOut : Prop :=
  ∀ (x : RegIdx) (y : BitVec 4) (s : State),
    (∃ t, exec (.shr x y) s = .next t ∧
      (s.params.vfOrder = .latchedTableOrder ∨ x ≠ vf →
        (t.getV x).toNat = (s.getV x).toNat / 2 ∧
        (x ≠ vf → (t.getV vf).toNat = (s.getV x).toNat % 2)) ∧
      unchangedOutside { v := [x, vf] } s t) ∧
    (∃ t, exec (.shl x y) s = .next t ∧
      (s.params.vfOrder = .latchedTableOrder ∨ x ≠ vf →
        (t.getV x).toNat = (s.getV x).toNat * 2 % 256 ∧
        (x ≠ vf → (t.getV vf).toNat = (s.getV x).toNat / 128)) ∧
      unchangedOutside { v := [x, vf] } s t)

/-- 43_alu.md R140 (spec's decision D10): the table of final values when VF is an operand of an instruction that also
writes it, one row of the table after another, for the three values of P_VF_ORDER. -/
def Obligations.VfOperandTable : Prop :=
  ∀ (x y : RegIdx) (n : BitVec 4) (s : State), x ≠ vf → y ≠ vf →
    let f := s.getV vf
    let a := s.getV x
    let b := s.getV y
    (∃ t, exec (.addReg vf y) s = .next t ∧ t.getV vf = bit (decide (255 < f.toNat + b.toNat))) ∧
    (∃ t, exec (.subReg vf y) s = .next t ∧
      (s.params.vfOrder = .latchedTableOrder → t.getV vf = f - b) ∧
      (s.params.vfOrder = .latchedFlagLast → t.getV vf = bit (decide (b.toNat < f.toNat))) ∧
      (s.params.vfOrder = .sequentialReread → t.getV vf = bit (decide (b.toNat < f.toNat)) - b)) ∧
    (∃ t, exec (.subReg x vf) s = .next t ∧ t.getV vf = bit (decide (f.toNat < a.toNat)) ∧
      (s.params.vfOrder ≠ .sequentialReread → t.getV x = a - f) ∧
      (s.params.vfOrder = .sequentialReread → t.getV x = a - bit (decide (f.toNat < a.toNat)))) ∧
    (∃ t, exec (.subReg vf vf) s = .next t ∧ t.getV vf = 0) ∧
    (∃ t, exec (.shr vf n) s = .next t ∧
      (s.params.vfOrder = .latchedTableOrder → t.getV vf = f >>> 1) ∧
      (s.params.vfOrder = .latchedFlagLast → t.getV vf = f &&& 1) ∧
      (s.params.vfOrder = .sequentialReread → t.getV vf = 0)) ∧
    (∃ t, exec (.subnReg vf y) s = .next t ∧
      (s.params.vfOrder = .latchedTableOrder → t.getV vf = b - f) ∧
      (s.params.vfOrder = .latchedFlagLast → t.getV vf = bit (decide (f.toNat < b.toNat))) ∧
      (s.params.vfOrder = .sequentialReread → t.getV vf = b - bit (decide (f.toNat < b.toNat)))) ∧
    (∃ t, exec (.subnReg x vf) s = .next t ∧ t.getV vf = bit (decide (a.toNat < f.toNat)) ∧
      (s.params.vfOrder ≠ .sequentialReread → t.getV x = f - a) ∧
      (s.params.vfOrder = .sequentialReread → t.getV x = bit (decide (a.toNat < f.toNat)) - a)) ∧
    (∃ t, exec (.subnReg vf vf) s = .next t ∧ t.getV vf = 0) ∧
    (∃ t, exec (.shl vf n) s = .next t ∧
      (s.params.vfOrder = .latchedTableOrder → t.getV vf = f <<< 1) ∧
      (s.params.vfOrder = .latchedFlagLast → t.getV vf = f >>> 7) ∧
      (s.params.vfOrder = .sequentialReread → t.getV vf = (f >>> 7) <<< 1))

/-- 43_alu.md R152, 10_state.md R43: RND draws exactly one free byte and stores it masked by the immediate. The byte is
free (log 6): nothing is known of its value. -/
def Obligations.RndStoresMaskedFreeByte : Prop :=
  ∀ (x : RegIdx) (nn : Byte) (s : State), ∃ t, exec (.rnd x nn) s = .next t ∧
    t.getV x = Config.randomByte s.draws &&& nn ∧ t.draws = s.draws + 1 ∧
    unchangedOutside { v := [x], draws := true } s t

/-! ### Index register and memory -/

/-- 44_index_memory.md R170, R171, R172: LD I, nnn; ADD I, Vx, which wraps at 12 bits and sets no flag; LD F, Vx, where vx
is not masked. -/
def Obligations.IndexWritesAreMasked : Prop :=
  ∀ (nnn : BitVec 12) (x : RegIdx) (s : State),
    (∃ t, exec (.ldI nnn) s = .next t ∧ t.i.toNat = nnn.toNat ∧ unchangedOutside { i := true } s t) ∧
    (∃ t, exec (.addI x) s = .next t ∧ t.i.toNat = (s.i.toNat + (s.getV x).toNat) % 4096 ∧
      unchangedOutside { i := true } s t) ∧
    (∃ t, exec (.ldF x) s = .next t ∧ t.i.toNat = (s.getV x).toNat * 5 ∧ unchangedOutside { i := true } s t)

/-- 44_index_memory.md R173: LD B stores the hundreds, tens and ones digits at I, I+1, I+2, each address wrapped, and no
other byte changes; where P_LOW_WRITE = `fault` and one of the addresses is below 0x200 it is fatal, ProtectedWrite with the
first such address, and no byte is written. -/
def Obligations.BcdStoresDecimalDigits : Prop :=
  ∀ (x : RegIdx) (s : State),
    (storeAllowed s 3 → ∃ t, exec (.ldB x) s = .next t ∧
      (let v := (s.getV x).toNat
       t.memRead (byteAddr s.i 0) = storedByte s (byteAddr s.i 0) (BitVec.ofNat 8 (v / 100)) ∧
       t.memRead (byteAddr s.i 1) = storedByte s (byteAddr s.i 1) (BitVec.ofNat 8 (v / 10 % 10)) ∧
       t.memRead (byteAddr s.i 2) = storedByte s (byteAddr s.i 2) (BitVec.ofNat 8 (v % 10))) ∧
      unchangedOutside { mem := addrsFrom s.i 3 } s t) ∧
    (∀ a, s.params.lowWrite = .fault → firstProtected s 3 a → ∃ t, exec (.ldB x) s = .next t ∧
      t.mode = .halted (.protectedWrite (s.pc - 2) a) ∧ ∀ b, t.memRead b = s.memRead b)

/-- 44_index_memory.md R174: LD [I], Vx stores V0..Vx, inclusive, at I..I+x, each address wrapped, and no other byte changes;
I advances only under P_LDST_I = `increment`; where P_LOW_WRITE = `fault` and one of the addresses is below 0x200 it is fatal,
ProtectedWrite with the first such address, and no byte is written. -/
def Obligations.StoreRegistersStoresV0ToVx : Prop :=
  ∀ (x : RegIdx) (s : State),
    (storeAllowed s (x.val + 1) → ∃ t, exec (.storeRegs x) s = .next t ∧
      (∀ k : RegIdx, k ≤ x → t.memRead (byteAddr s.i k.val) = storedByte s (byteAddr s.i k.val) (s.getV k)) ∧
      (s.params.ldstI = .unchanged → t.i = s.i) ∧
      (s.params.ldstI = .increment → t.i.toNat = (s.i.toNat + x.val + 1) % 4096) ∧
      unchangedOutside { mem := addrsFrom s.i (x.val + 1), i := true } s t) ∧
    (∀ a, s.params.lowWrite = .fault → firstProtected s (x.val + 1) a → ∃ t, exec (.storeRegs x) s = .next t ∧
      t.mode = .halted (.protectedWrite (s.pc - 2) a) ∧ ∀ b, t.memRead b = s.memRead b)

/-- 44_index_memory.md R175, R176: LD Vx, [I] loads V0..Vx, inclusive, from I..I+x, each address wrapped; memory and the
registers above Vx are unchanged; I changes only under P_LDST_I = `increment`. -/
def Obligations.LoadRegistersLoadsV0ToVx : Prop :=
  ∀ (x : RegIdx) (s : State), ∃ t, exec (.loadRegs x) s = .next t ∧
    (∀ k : RegIdx, k ≤ x → t.getV k = s.memRead (byteAddr s.i k.val)) ∧
    (s.params.ldstI = .unchanged → t.i = s.i) ∧
    (s.params.ldstI = .increment → t.i.toNat = (s.i.toNat + x.val + 1) % 4096) ∧
    unchangedOutside { v := regsUpTo x, i := true } s t

/-- 20_memory.md R63 (derived there): bytes a store writes at PC are what the very next fetch reads. -/
def Obligations.NextFetchSeesStoredBytes : Prop :=
  ∀ (x : RegIdx) (s : State), 1 ≤ x.val → byteAddr s.pc 0 = byteAddr s.i 0 →
    (∀ k < x.val + 1, 0x200 ≤ byteAddr s.i k) →
    ∃ t, exec (.storeRegs x) s = .next t ∧ t.pc = s.pc ∧ fetchedOpcode t = s.getV 0 ++ s.getV 1

/-! ### Keypad and timers -/

/-- 45_keys_timers.md R190, R191: SKP and SKNP skip by the state of key Vx, for Vx = 0..15. -/
def Obligations.KeySkipsReadKeypad : Prop :=
  ∀ (x : RegIdx) (s : State), (s.getV x).toNat ≤ 15 →
    (∃ t, exec (.skp x) s = .next t ∧
      (s.key.getLsbD (s.getV x).toNat = true → t.pc.toNat = (s.pc.toNat + 2) % 65536) ∧
      (s.key.getLsbD (s.getV x).toNat = false → t.pc = s.pc) ∧ unchangedOutside { pc := true } s t) ∧
    (∃ t, exec (.sknp x) s = .next t ∧
      (s.key.getLsbD (s.getV x).toNat = false → t.pc.toNat = (s.pc.toNat + 2) % 65536) ∧
      (s.key.getLsbD (s.getV x).toNat = true → t.pc = s.pc) ∧ unchangedOutside { pc := true } s t)

/-- 60_exceptions.md R215 (spec's decision D14): SKP and SKNP with Vx > 15 are fatal, KeyIndexOutOfRange with the
instruction's address and Vx; PC is not changed. -/
def Obligations.KeyIndexAboveFifteenIsFatal : Prop :=
  ∀ (x : RegIdx) (s : State) (ins : Instr), ins = .skp x ∨ ins = .sknp x → 15 < (s.getV x).toNat →
    ∃ t, exec ins s = .next t ∧ t.mode = .halted (.keyIndexOutOfRange (s.pc - 2) (s.getV x)) ∧
      unchangedOutside { mode := true } s t

/-- 45_keys_timers.md R192, R193, R194; 10_state.md R34: LD Vx, DT; LD DT, Vx; LD ST, Vx, which sets SOUND_ACTIVE at
once. -/
def Obligations.TimerMovesCopy : Prop :=
  ∀ (x : RegIdx) (s : State),
    (∃ t, exec (.ldVxDt x) s = .next t ∧ t.getV x = s.dt ∧ unchangedOutside { v := [x] } s t) ∧
    (∃ t, exec (.ldDtVx x) s = .next t ∧ t.dt = s.getV x ∧ unchangedOutside { dt := true } s t) ∧
    (∃ t, exec (.ldStVx x) s = .next t ∧ t.st = s.getV x ∧ t.soundActive = decide (0 < (s.getV x).toNat) ∧
      unchangedOutside { st := true } s t)

/-- 45_keys_timers.md R195: LD Vx, K suspends the instruction stream with the keypad as sampled now; PC stays. -/
def Obligations.WaitForKeySuspends : Prop :=
  ∀ (x : RegIdx) (s : State), ∃ t, exec (.ldVxK x) s = .next t ∧ t.mode = .waitingForKey x s.key ∧
    unchangedOutside { mode := true } s t
end

