-- ==== Sys2Proof/Laws/Decode.lean ====
section
/-! SUPPORT. Fields and encodings as arithmetic on the opcode, the fields of an encoded opcode, and an opcode put together
from its own fields (30_encoding.md R71). -/

namespace Sys2Proof

section Fields

variable (w : Word) (op x y n : BitVec 4) (i : Fin 16) (nn : Byte) (nnn : BitVec 12)

/-! ### Fields as arithmetic -/

theorem opField_toNat : (opField w).toNat = w.toNat / 4096 := by
  have := w.isLt
  simp only [opField, BitVec.extractLsb'_toNat, Nat.shiftRight_eq_div_pow]
  omega

theorem xNibble_toNat : (xNibble w).toNat = w.toNat / 256 % 16 := by
  simp only [xNibble, BitVec.extractLsb'_toNat, Nat.shiftRight_eq_div_pow]

theorem yNibble_toNat : (yNibble w).toNat = w.toNat / 16 % 16 := by
  simp only [yNibble, BitVec.extractLsb'_toNat, Nat.shiftRight_eq_div_pow]

theorem nNibble_toNat : (nNibble w).toNat = w.toNat % 16 := by
  simp only [nNibble, BitVec.extractLsb'_toNat, Nat.shiftRight_zero]

theorem nnField_toNat : (nnField w).toNat = w.toNat % 256 := by
  simp only [nnField, BitVec.extractLsb'_toNat, Nat.shiftRight_zero]

theorem nnnField_toNat : (nnnField w).toNat = w.toNat % 4096 := by
  simp only [nnnField, BitVec.extractLsb'_toNat, Nat.shiftRight_zero]

/-- The sixteen values of a nibble. -/
theorem nibble_cases (b : BitVec 4) : b = 0 ∨ b = 1 ∨ b = 2 ∨ b = 3 ∨ b = 4 ∨ b = 5 ∨ b = 6 ∨ b = 7 ∨ b = 8 ∨ b = 9 ∨
    b = 10 ∨ b = 11 ∨ b = 12 ∨ b = 13 ∨ b = 14 ∨ b = 15 := by
  revert b
  decide

/-! ### Encodings as arithmetic -/

theorem toNat_append_add {a b : Nat} (u : BitVec a) (v : BitVec b) : (u ++ v).toNat = u.toNat * 2 ^ b + v.toNat := by
  rw [BitVec.toNat_append, ← Nat.shiftLeft_add_eq_or_of_lt v.isLt, Nat.shiftLeft_eq]

theorem encodeXyn_toNat :
    (encodeXyn op x y n).toNat = op.toNat * 4096 + x.toNat * 256 + y.toNat * 16 + n.toNat := by
  have : (encodeXyn op x y n).toNat = (((op ++ x) ++ y) ++ n).toNat := rfl
  rw [this, toNat_append_add, toNat_append_add, toNat_append_add]
  omega

theorem nibble_toNat : (nibble i).toNat = i.val := rfl

theorem encodeXnn_toNat : (encodeXnn op i nn).toNat = op.toNat * 4096 + i.val * 256 + nn.toNat := by
  have : (encodeXnn op i nn).toNat = ((op ++ nibble i) ++ nn).toNat := rfl
  rw [this, toNat_append_add, toNat_append_add, nibble_toNat]
  omega

theorem encodeNnn_toNat : (encodeNnn op nnn).toNat = op.toNat * 4096 + nnn.toNat := by
  have : (encodeNnn op nnn).toNat = (op ++ nnn).toNat := rfl
  rw [this, toNat_append_add, show (2 : Nat) ^ 12 = 4096 from rfl]

/-! ### The fields of an encoding -/

@[simp] theorem opField_encodeXyn : opField (encodeXyn op x y n) = op := by
  apply BitVec.eq_of_toNat_eq
  have := op.isLt; have := x.isLt; have := y.isLt; have := n.isLt
  rw [opField_toNat, encodeXyn_toNat]
  omega

@[simp] theorem xNibble_encodeXyn : xNibble (encodeXyn op x y n) = x := by
  apply BitVec.eq_of_toNat_eq
  have := op.isLt; have := x.isLt; have := y.isLt; have := n.isLt
  rw [xNibble_toNat, encodeXyn_toNat]
  omega

@[simp] theorem yNibble_encodeXyn : yNibble (encodeXyn op x y n) = y := by
  apply BitVec.eq_of_toNat_eq
  have := op.isLt; have := x.isLt; have := y.isLt; have := n.isLt
  rw [yNibble_toNat, encodeXyn_toNat]
  omega

@[simp] theorem nNibble_encodeXyn : nNibble (encodeXyn op x y n) = n := by
  apply BitVec.eq_of_toNat_eq
  have := op.isLt; have := x.isLt; have := y.isLt; have := n.isLt
  rw [nNibble_toNat, encodeXyn_toNat]
  omega

@[simp] theorem opField_encodeXnn : opField (encodeXnn op i nn) = op := by
  apply BitVec.eq_of_toNat_eq
  have := op.isLt; have := i.isLt; have := nn.isLt
  rw [opField_toNat, encodeXnn_toNat]
  omega

@[simp] theorem xNibble_encodeXnn : xNibble (encodeXnn op i nn) = nibble i := by
  apply BitVec.eq_of_toNat_eq
  have := op.isLt; have := i.isLt; have := nn.isLt
  rw [xNibble_toNat, encodeXnn_toNat, nibble_toNat]
  omega

@[simp] theorem nnField_encodeXnn : nnField (encodeXnn op i nn) = nn := by
  apply BitVec.eq_of_toNat_eq
  have := op.isLt; have := i.isLt; have := nn.isLt
  rw [nnField_toNat, encodeXnn_toNat]
  omega

@[simp] theorem opField_encodeNnn : opField (encodeNnn op nnn) = op := by
  apply BitVec.eq_of_toNat_eq
  have := op.isLt; have := nnn.isLt
  rw [opField_toNat, encodeNnn_toNat]
  omega

@[simp] theorem nnnField_encodeNnn : nnnField (encodeNnn op nnn) = nnn := by
  apply BitVec.eq_of_toNat_eq
  have := op.isLt; have := nnn.isLt
  rw [nnnField_toNat, encodeNnn_toNat]
  omega

@[simp] theorem nibble_toFin : (nibble i).toFin = i := rfl

@[simp] theorem nibble_ofFin : nibble x.toFin = x := rfl

@[simp] theorem nibble_xField : nibble (xField w) = xNibble w := rfl

@[simp] theorem nibble_yField : nibble (yField w) = yNibble w := rfl

@[simp] theorem xField_encodeXyn : xField (encodeXyn op x y n) = x.toFin := by
  rw [xField, xNibble_encodeXyn]

@[simp] theorem yField_encodeXyn : yField (encodeXyn op x y n) = y.toFin := by
  rw [yField, yNibble_encodeXyn]

@[simp] theorem xField_encodeXnn : xField (encodeXnn op i nn) = i := by
  rw [xField, xNibble_encodeXnn, nibble_toFin]

/-! ### An opcode from its own fields -/

theorem encodeXyn_fields : encodeXyn (opField w) (xNibble w) (yNibble w) (nNibble w) = w := by
  apply BitVec.eq_of_toNat_eq
  rw [encodeXyn_toNat, opField_toNat, xNibble_toNat, yNibble_toNat, nNibble_toNat]
  omega

theorem encodeXnn_fields : encodeXnn (opField w) (xField w) (nnField w) = w := by
  apply BitVec.eq_of_toNat_eq
  have hx : (xField w).val = (xNibble w).toNat := rfl
  rw [encodeXnn_toNat, hx, opField_toNat, xNibble_toNat, nnField_toNat]
  omega

theorem encodeNnn_fields : encodeNnn (opField w) (nnnField w) = w := by
  apply BitVec.eq_of_toNat_eq
  rw [encodeNnn_toNat, opField_toNat, nnnField_toNat]
  omega

/-- The bytes of an opcode put back together (30_encoding.md R70). -/
theorem opcodeOfBytes_bytes : opcodeOfBytes (highByte w) (lowByte w) = w := by
  apply BitVec.eq_of_toNat_eq
  have h : (opcodeOfBytes (highByte w) (lowByte w)).toNat = (highByte w ++ lowByte w).toNat := rfl
  have := w.isLt
  rw [h, toNat_append_add]
  simp only [highByte, lowByte, BitVec.extractLsb'_toNat, Nat.shiftRight_eq_div_pow]
  omega

end Fields

end Sys2Proof
end

