-- ==== Sys2Proof/Laws/State.lean ====
section
/-! SUPPORT. One lemma per field per update of the state, each true by rfl, so that no later proof unfolds a record
update; then the accessors' own small lemmas. -/

namespace Sys2Proof.Machine

variable (s : State)

/-! ### setV -/

@[simp] theorem State.setV_v (x : RegIdx) (b : Byte) : (s.setV x b).v = s.v.set x.val b := rfl
@[simp] theorem State.setV_i (x : RegIdx) (b : Byte) : (s.setV x b).i = s.i := rfl
@[simp] theorem State.setV_pc (x : RegIdx) (b : Byte) : (s.setV x b).pc = s.pc := rfl
@[simp] theorem State.setV_sp (x : RegIdx) (b : Byte) : (s.setV x b).sp = s.sp := rfl
@[simp] theorem State.setV_stack (x : RegIdx) (b : Byte) : (s.setV x b).stack = s.stack := rfl
@[simp] theorem State.setV_dt (x : RegIdx) (b : Byte) : (s.setV x b).dt = s.dt := rfl
@[simp] theorem State.setV_st (x : RegIdx) (b : Byte) : (s.setV x b).st = s.st := rfl
@[simp] theorem State.setV_mem (x : RegIdx) (b : Byte) : (s.setV x b).mem = s.mem := rfl
@[simp] theorem State.setV_fb (x : RegIdx) (b : Byte) : (s.setV x b).fb = s.fb := rfl
@[simp] theorem State.setV_mode (x : RegIdx) (b : Byte) : (s.setV x b).mode = s.mode := rfl
@[simp] theorem State.setV_fbDirty (x : RegIdx) (b : Byte) : (s.setV x b).fbDirty = s.fbDirty := rfl
@[simp] theorem State.setV_log (x : RegIdx) (b : Byte) : (s.setV x b).log = s.log := rfl
@[simp] theorem State.setV_key (x : RegIdx) (b : Byte) : (s.setV x b).key = s.key := rfl
@[simp] theorem State.setV_params (x : RegIdx) (b : Byte) : (s.setV x b).params = s.params := rfl
@[simp] theorem State.setV_draws (x : RegIdx) (b : Byte) : (s.setV x b).draws = s.draws := rfl
@[simp] theorem State.setV_schedule (x : RegIdx) (b : Byte) : (s.setV x b).schedule = s.schedule := rfl

/-! ### setI -/

@[simp] theorem State.setI_v (w : Word) : (s.setI w).v = s.v := rfl
@[simp] theorem State.setI_i (w : Word) : (s.setI w).i = mask12 w := rfl
@[simp] theorem State.setI_pc (w : Word) : (s.setI w).pc = s.pc := rfl
@[simp] theorem State.setI_sp (w : Word) : (s.setI w).sp = s.sp := rfl
@[simp] theorem State.setI_stack (w : Word) : (s.setI w).stack = s.stack := rfl
@[simp] theorem State.setI_dt (w : Word) : (s.setI w).dt = s.dt := rfl
@[simp] theorem State.setI_st (w : Word) : (s.setI w).st = s.st := rfl
@[simp] theorem State.setI_mem (w : Word) : (s.setI w).mem = s.mem := rfl
@[simp] theorem State.setI_fb (w : Word) : (s.setI w).fb = s.fb := rfl
@[simp] theorem State.setI_mode (w : Word) : (s.setI w).mode = s.mode := rfl
@[simp] theorem State.setI_fbDirty (w : Word) : (s.setI w).fbDirty = s.fbDirty := rfl
@[simp] theorem State.setI_log (w : Word) : (s.setI w).log = s.log := rfl
@[simp] theorem State.setI_key (w : Word) : (s.setI w).key = s.key := rfl
@[simp] theorem State.setI_params (w : Word) : (s.setI w).params = s.params := rfl
@[simp] theorem State.setI_draws (w : Word) : (s.setI w).draws = s.draws := rfl
@[simp] theorem State.setI_schedule (w : Word) : (s.setI w).schedule = s.schedule := rfl

/-! ### setPc -/

@[simp] theorem State.setPc_v (w : Word) : (s.setPc w).v = s.v := rfl
@[simp] theorem State.setPc_i (w : Word) : (s.setPc w).i = s.i := rfl
@[simp] theorem State.setPc_pc (w : Word) : (s.setPc w).pc = w := rfl
@[simp] theorem State.setPc_sp (w : Word) : (s.setPc w).sp = s.sp := rfl
@[simp] theorem State.setPc_stack (w : Word) : (s.setPc w).stack = s.stack := rfl
@[simp] theorem State.setPc_dt (w : Word) : (s.setPc w).dt = s.dt := rfl
@[simp] theorem State.setPc_st (w : Word) : (s.setPc w).st = s.st := rfl
@[simp] theorem State.setPc_mem (w : Word) : (s.setPc w).mem = s.mem := rfl
@[simp] theorem State.setPc_fb (w : Word) : (s.setPc w).fb = s.fb := rfl
@[simp] theorem State.setPc_mode (w : Word) : (s.setPc w).mode = s.mode := rfl
@[simp] theorem State.setPc_fbDirty (w : Word) : (s.setPc w).fbDirty = s.fbDirty := rfl
@[simp] theorem State.setPc_log (w : Word) : (s.setPc w).log = s.log := rfl
@[simp] theorem State.setPc_key (w : Word) : (s.setPc w).key = s.key := rfl
@[simp] theorem State.setPc_params (w : Word) : (s.setPc w).params = s.params := rfl
@[simp] theorem State.setPc_draws (w : Word) : (s.setPc w).draws = s.draws := rfl
@[simp] theorem State.setPc_schedule (w : Word) : (s.setPc w).schedule = s.schedule := rfl

/-! ### advancePc -/

@[simp] theorem State.advancePc_v : s.advancePc.v = s.v := rfl
@[simp] theorem State.advancePc_i : s.advancePc.i = s.i := rfl
@[simp] theorem State.advancePc_pc : s.advancePc.pc = s.pc + 2 := rfl
@[simp] theorem State.advancePc_sp : s.advancePc.sp = s.sp := rfl
@[simp] theorem State.advancePc_stack : s.advancePc.stack = s.stack := rfl
@[simp] theorem State.advancePc_dt : s.advancePc.dt = s.dt := rfl
@[simp] theorem State.advancePc_st : s.advancePc.st = s.st := rfl
@[simp] theorem State.advancePc_mem : s.advancePc.mem = s.mem := rfl
@[simp] theorem State.advancePc_fb : s.advancePc.fb = s.fb := rfl
@[simp] theorem State.advancePc_mode : s.advancePc.mode = s.mode := rfl
@[simp] theorem State.advancePc_fbDirty : s.advancePc.fbDirty = s.fbDirty := rfl
@[simp] theorem State.advancePc_log : s.advancePc.log = s.log := rfl
@[simp] theorem State.advancePc_key : s.advancePc.key = s.key := rfl
@[simp] theorem State.advancePc_params : s.advancePc.params = s.params := rfl
@[simp] theorem State.advancePc_draws : s.advancePc.draws = s.draws := rfl
@[simp] theorem State.advancePc_schedule : s.advancePc.schedule = s.schedule := rfl

/-! ### setDt -/

@[simp] theorem State.setDt_v (b : Byte) : (s.setDt b).v = s.v := rfl
@[simp] theorem State.setDt_i (b : Byte) : (s.setDt b).i = s.i := rfl
@[simp] theorem State.setDt_pc (b : Byte) : (s.setDt b).pc = s.pc := rfl
@[simp] theorem State.setDt_sp (b : Byte) : (s.setDt b).sp = s.sp := rfl
@[simp] theorem State.setDt_stack (b : Byte) : (s.setDt b).stack = s.stack := rfl
@[simp] theorem State.setDt_dt (b : Byte) : (s.setDt b).dt = b := rfl
@[simp] theorem State.setDt_st (b : Byte) : (s.setDt b).st = s.st := rfl
@[simp] theorem State.setDt_mem (b : Byte) : (s.setDt b).mem = s.mem := rfl
@[simp] theorem State.setDt_fb (b : Byte) : (s.setDt b).fb = s.fb := rfl
@[simp] theorem State.setDt_mode (b : Byte) : (s.setDt b).mode = s.mode := rfl
@[simp] theorem State.setDt_fbDirty (b : Byte) : (s.setDt b).fbDirty = s.fbDirty := rfl
@[simp] theorem State.setDt_log (b : Byte) : (s.setDt b).log = s.log := rfl
@[simp] theorem State.setDt_key (b : Byte) : (s.setDt b).key = s.key := rfl
@[simp] theorem State.setDt_params (b : Byte) : (s.setDt b).params = s.params := rfl
@[simp] theorem State.setDt_draws (b : Byte) : (s.setDt b).draws = s.draws := rfl
@[simp] theorem State.setDt_schedule (b : Byte) : (s.setDt b).schedule = s.schedule := rfl

/-! ### setSt -/

@[simp] theorem State.setSt_v (b : Byte) : (s.setSt b).v = s.v := rfl
@[simp] theorem State.setSt_i (b : Byte) : (s.setSt b).i = s.i := rfl
@[simp] theorem State.setSt_pc (b : Byte) : (s.setSt b).pc = s.pc := rfl
@[simp] theorem State.setSt_sp (b : Byte) : (s.setSt b).sp = s.sp := rfl
@[simp] theorem State.setSt_stack (b : Byte) : (s.setSt b).stack = s.stack := rfl
@[simp] theorem State.setSt_dt (b : Byte) : (s.setSt b).dt = s.dt := rfl
@[simp] theorem State.setSt_st (b : Byte) : (s.setSt b).st = b := rfl
@[simp] theorem State.setSt_mem (b : Byte) : (s.setSt b).mem = s.mem := rfl
@[simp] theorem State.setSt_fb (b : Byte) : (s.setSt b).fb = s.fb := rfl
@[simp] theorem State.setSt_mode (b : Byte) : (s.setSt b).mode = s.mode := rfl
@[simp] theorem State.setSt_fbDirty (b : Byte) : (s.setSt b).fbDirty = s.fbDirty := rfl
@[simp] theorem State.setSt_log (b : Byte) : (s.setSt b).log = s.log := rfl
@[simp] theorem State.setSt_key (b : Byte) : (s.setSt b).key = s.key := rfl
@[simp] theorem State.setSt_params (b : Byte) : (s.setSt b).params = s.params := rfl
@[simp] theorem State.setSt_draws (b : Byte) : (s.setSt b).draws = s.draws := rfl
@[simp] theorem State.setSt_schedule (b : Byte) : (s.setSt b).schedule = s.schedule := rfl

/-! ### setMode -/

@[simp] theorem State.setMode_v (m : Mode) : (s.setMode m).v = s.v := rfl
@[simp] theorem State.setMode_i (m : Mode) : (s.setMode m).i = s.i := rfl
@[simp] theorem State.setMode_pc (m : Mode) : (s.setMode m).pc = s.pc := rfl
@[simp] theorem State.setMode_sp (m : Mode) : (s.setMode m).sp = s.sp := rfl
@[simp] theorem State.setMode_stack (m : Mode) : (s.setMode m).stack = s.stack := rfl
@[simp] theorem State.setMode_dt (m : Mode) : (s.setMode m).dt = s.dt := rfl
@[simp] theorem State.setMode_st (m : Mode) : (s.setMode m).st = s.st := rfl
@[simp] theorem State.setMode_mem (m : Mode) : (s.setMode m).mem = s.mem := rfl
@[simp] theorem State.setMode_fb (m : Mode) : (s.setMode m).fb = s.fb := rfl
@[simp] theorem State.setMode_mode (m : Mode) : (s.setMode m).mode = m := rfl
@[simp] theorem State.setMode_fbDirty (m : Mode) : (s.setMode m).fbDirty = s.fbDirty := rfl
@[simp] theorem State.setMode_log (m : Mode) : (s.setMode m).log = s.log := rfl
@[simp] theorem State.setMode_key (m : Mode) : (s.setMode m).key = s.key := rfl
@[simp] theorem State.setMode_params (m : Mode) : (s.setMode m).params = s.params := rfl
@[simp] theorem State.setMode_draws (m : Mode) : (s.setMode m).draws = s.draws := rfl
@[simp] theorem State.setMode_schedule (m : Mode) : (s.setMode m).schedule = s.schedule := rfl

/-! ### setDirty -/

@[simp] theorem State.setDirty_v (b : Bool) : (s.setDirty b).v = s.v := rfl
@[simp] theorem State.setDirty_i (b : Bool) : (s.setDirty b).i = s.i := rfl
@[simp] theorem State.setDirty_pc (b : Bool) : (s.setDirty b).pc = s.pc := rfl
@[simp] theorem State.setDirty_sp (b : Bool) : (s.setDirty b).sp = s.sp := rfl
@[simp] theorem State.setDirty_stack (b : Bool) : (s.setDirty b).stack = s.stack := rfl
@[simp] theorem State.setDirty_dt (b : Bool) : (s.setDirty b).dt = s.dt := rfl
@[simp] theorem State.setDirty_st (b : Bool) : (s.setDirty b).st = s.st := rfl
@[simp] theorem State.setDirty_mem (b : Bool) : (s.setDirty b).mem = s.mem := rfl
@[simp] theorem State.setDirty_fb (b : Bool) : (s.setDirty b).fb = s.fb := rfl
@[simp] theorem State.setDirty_mode (b : Bool) : (s.setDirty b).mode = s.mode := rfl
@[simp] theorem State.setDirty_fbDirty (b : Bool) : (s.setDirty b).fbDirty = b := rfl
@[simp] theorem State.setDirty_log (b : Bool) : (s.setDirty b).log = s.log := rfl
@[simp] theorem State.setDirty_key (b : Bool) : (s.setDirty b).key = s.key := rfl
@[simp] theorem State.setDirty_params (b : Bool) : (s.setDirty b).params = s.params := rfl
@[simp] theorem State.setDirty_draws (b : Bool) : (s.setDirty b).draws = s.draws := rfl
@[simp] theorem State.setDirty_schedule (b : Bool) : (s.setDirty b).schedule = s.schedule := rfl

/-! ### setFb -/

@[simp] theorem State.setFb_v (fb : Framebuffer) : (s.setFb fb).v = s.v := rfl
@[simp] theorem State.setFb_i (fb : Framebuffer) : (s.setFb fb).i = s.i := rfl
@[simp] theorem State.setFb_pc (fb : Framebuffer) : (s.setFb fb).pc = s.pc := rfl
@[simp] theorem State.setFb_sp (fb : Framebuffer) : (s.setFb fb).sp = s.sp := rfl
@[simp] theorem State.setFb_stack (fb : Framebuffer) : (s.setFb fb).stack = s.stack := rfl
@[simp] theorem State.setFb_dt (fb : Framebuffer) : (s.setFb fb).dt = s.dt := rfl
@[simp] theorem State.setFb_st (fb : Framebuffer) : (s.setFb fb).st = s.st := rfl
@[simp] theorem State.setFb_mem (fb : Framebuffer) : (s.setFb fb).mem = s.mem := rfl
@[simp] theorem State.setFb_fb (fb : Framebuffer) : (s.setFb fb).fb = fb := rfl
@[simp] theorem State.setFb_mode (fb : Framebuffer) : (s.setFb fb).mode = s.mode := rfl
@[simp] theorem State.setFb_fbDirty (fb : Framebuffer) : (s.setFb fb).fbDirty = s.fbDirty := rfl
@[simp] theorem State.setFb_log (fb : Framebuffer) : (s.setFb fb).log = s.log := rfl
@[simp] theorem State.setFb_key (fb : Framebuffer) : (s.setFb fb).key = s.key := rfl
@[simp] theorem State.setFb_params (fb : Framebuffer) : (s.setFb fb).params = s.params := rfl
@[simp] theorem State.setFb_draws (fb : Framebuffer) : (s.setFb fb).draws = s.draws := rfl
@[simp] theorem State.setFb_schedule (fb : Framebuffer) : (s.setFb fb).schedule = s.schedule := rfl

/-! ### setKey -/

@[simp] theorem State.setKey_v (k : Word) : (s.setKey k).v = s.v := rfl
@[simp] theorem State.setKey_i (k : Word) : (s.setKey k).i = s.i := rfl
@[simp] theorem State.setKey_pc (k : Word) : (s.setKey k).pc = s.pc := rfl
@[simp] theorem State.setKey_sp (k : Word) : (s.setKey k).sp = s.sp := rfl
@[simp] theorem State.setKey_stack (k : Word) : (s.setKey k).stack = s.stack := rfl
@[simp] theorem State.setKey_dt (k : Word) : (s.setKey k).dt = s.dt := rfl
@[simp] theorem State.setKey_st (k : Word) : (s.setKey k).st = s.st := rfl
@[simp] theorem State.setKey_mem (k : Word) : (s.setKey k).mem = s.mem := rfl
@[simp] theorem State.setKey_fb (k : Word) : (s.setKey k).fb = s.fb := rfl
@[simp] theorem State.setKey_mode (k : Word) : (s.setKey k).mode = s.mode := rfl
@[simp] theorem State.setKey_fbDirty (k : Word) : (s.setKey k).fbDirty = s.fbDirty := rfl
@[simp] theorem State.setKey_log (k : Word) : (s.setKey k).log = s.log := rfl
@[simp] theorem State.setKey_key (k : Word) : (s.setKey k).key = k := rfl
@[simp] theorem State.setKey_params (k : Word) : (s.setKey k).params = s.params := rfl
@[simp] theorem State.setKey_draws (k : Word) : (s.setKey k).draws = s.draws := rfl
@[simp] theorem State.setKey_schedule (k : Word) : (s.setKey k).schedule = s.schedule := rfl

/-! ### setSchedule -/

@[simp] theorem State.setSchedule_v (ms : List Move) : (s.setSchedule ms).v = s.v := rfl
@[simp] theorem State.setSchedule_i (ms : List Move) : (s.setSchedule ms).i = s.i := rfl
@[simp] theorem State.setSchedule_pc (ms : List Move) : (s.setSchedule ms).pc = s.pc := rfl
@[simp] theorem State.setSchedule_sp (ms : List Move) : (s.setSchedule ms).sp = s.sp := rfl
@[simp] theorem State.setSchedule_stack (ms : List Move) : (s.setSchedule ms).stack = s.stack := rfl
@[simp] theorem State.setSchedule_dt (ms : List Move) : (s.setSchedule ms).dt = s.dt := rfl
@[simp] theorem State.setSchedule_st (ms : List Move) : (s.setSchedule ms).st = s.st := rfl
@[simp] theorem State.setSchedule_mem (ms : List Move) : (s.setSchedule ms).mem = s.mem := rfl
@[simp] theorem State.setSchedule_fb (ms : List Move) : (s.setSchedule ms).fb = s.fb := rfl
@[simp] theorem State.setSchedule_mode (ms : List Move) : (s.setSchedule ms).mode = s.mode := rfl
@[simp] theorem State.setSchedule_fbDirty (ms : List Move) : (s.setSchedule ms).fbDirty = s.fbDirty := rfl
@[simp] theorem State.setSchedule_log (ms : List Move) : (s.setSchedule ms).log = s.log := rfl
@[simp] theorem State.setSchedule_key (ms : List Move) : (s.setSchedule ms).key = s.key := rfl
@[simp] theorem State.setSchedule_params (ms : List Move) : (s.setSchedule ms).params = s.params := rfl
@[simp] theorem State.setSchedule_draws (ms : List Move) : (s.setSchedule ms).draws = s.draws := rfl
@[simp] theorem State.setSchedule_schedule (ms : List Move) : (s.setSchedule ms).schedule = ms := rfl

/-! ### appendLog -/

@[simp] theorem State.appendLog_v (a op : Word) : (s.appendLog a op).v = s.v := rfl
@[simp] theorem State.appendLog_i (a op : Word) : (s.appendLog a op).i = s.i := rfl
@[simp] theorem State.appendLog_pc (a op : Word) : (s.appendLog a op).pc = s.pc := rfl
@[simp] theorem State.appendLog_sp (a op : Word) : (s.appendLog a op).sp = s.sp := rfl
@[simp] theorem State.appendLog_stack (a op : Word) : (s.appendLog a op).stack = s.stack := rfl
@[simp] theorem State.appendLog_dt (a op : Word) : (s.appendLog a op).dt = s.dt := rfl
@[simp] theorem State.appendLog_st (a op : Word) : (s.appendLog a op).st = s.st := rfl
@[simp] theorem State.appendLog_mem (a op : Word) : (s.appendLog a op).mem = s.mem := rfl
@[simp] theorem State.appendLog_fb (a op : Word) : (s.appendLog a op).fb = s.fb := rfl
@[simp] theorem State.appendLog_mode (a op : Word) : (s.appendLog a op).mode = s.mode := rfl
@[simp] theorem State.appendLog_fbDirty (a op : Word) : (s.appendLog a op).fbDirty = s.fbDirty := rfl
@[simp] theorem State.appendLog_log (a op : Word) : (s.appendLog a op).log = s.log ++ [⟨a, op⟩] := rfl
@[simp] theorem State.appendLog_key (a op : Word) : (s.appendLog a op).key = s.key := rfl
@[simp] theorem State.appendLog_params (a op : Word) : (s.appendLog a op).params = s.params := rfl
@[simp] theorem State.appendLog_draws (a op : Word) : (s.appendLog a op).draws = s.draws := rfl
@[simp] theorem State.appendLog_schedule (a op : Word) : (s.appendLog a op).schedule = s.schedule := rfl

/-! ### setByte -/

@[simp] theorem State.setByte_v (a : Nat) (b : Byte) : (s.setByte a b).v = s.v := rfl
@[simp] theorem State.setByte_i (a : Nat) (b : Byte) : (s.setByte a b).i = s.i := rfl
@[simp] theorem State.setByte_pc (a : Nat) (b : Byte) : (s.setByte a b).pc = s.pc := rfl
@[simp] theorem State.setByte_sp (a : Nat) (b : Byte) : (s.setByte a b).sp = s.sp := rfl
@[simp] theorem State.setByte_stack (a : Nat) (b : Byte) : (s.setByte a b).stack = s.stack := rfl
@[simp] theorem State.setByte_dt (a : Nat) (b : Byte) : (s.setByte a b).dt = s.dt := rfl
@[simp] theorem State.setByte_st (a : Nat) (b : Byte) : (s.setByte a b).st = s.st := rfl
@[simp] theorem State.setByte_mem (a : Nat) (b : Byte) : (s.setByte a b).mem = Memory.write s.params.font s.mem a b := rfl
@[simp] theorem State.setByte_fb (a : Nat) (b : Byte) : (s.setByte a b).fb = s.fb := rfl
@[simp] theorem State.setByte_mode (a : Nat) (b : Byte) : (s.setByte a b).mode = s.mode := rfl
@[simp] theorem State.setByte_fbDirty (a : Nat) (b : Byte) : (s.setByte a b).fbDirty = s.fbDirty := rfl
@[simp] theorem State.setByte_log (a : Nat) (b : Byte) : (s.setByte a b).log = s.log := rfl
@[simp] theorem State.setByte_key (a : Nat) (b : Byte) : (s.setByte a b).key = s.key := rfl
@[simp] theorem State.setByte_params (a : Nat) (b : Byte) : (s.setByte a b).params = s.params := rfl
@[simp] theorem State.setByte_draws (a : Nat) (b : Byte) : (s.setByte a b).draws = s.draws := rfl
@[simp] theorem State.setByte_schedule (a : Nat) (b : Byte) : (s.setByte a b).schedule = s.schedule := rfl

/-! ### countDraw -/

@[simp] theorem State.countDraw_v : s.countDraw.v = s.v := rfl
@[simp] theorem State.countDraw_i : s.countDraw.i = s.i := rfl
@[simp] theorem State.countDraw_pc : s.countDraw.pc = s.pc := rfl
@[simp] theorem State.countDraw_sp : s.countDraw.sp = s.sp := rfl
@[simp] theorem State.countDraw_stack : s.countDraw.stack = s.stack := rfl
@[simp] theorem State.countDraw_dt : s.countDraw.dt = s.dt := rfl
@[simp] theorem State.countDraw_st : s.countDraw.st = s.st := rfl
@[simp] theorem State.countDraw_mem : s.countDraw.mem = s.mem := rfl
@[simp] theorem State.countDraw_fb : s.countDraw.fb = s.fb := rfl
@[simp] theorem State.countDraw_mode : s.countDraw.mode = s.mode := rfl
@[simp] theorem State.countDraw_fbDirty : s.countDraw.fbDirty = s.fbDirty := rfl
@[simp] theorem State.countDraw_log : s.countDraw.log = s.log := rfl
@[simp] theorem State.countDraw_key : s.countDraw.key = s.key := rfl
@[simp] theorem State.countDraw_params : s.countDraw.params = s.params := rfl
@[simp] theorem State.countDraw_draws : s.countDraw.draws = s.draws + 1 := rfl
@[simp] theorem State.countDraw_schedule : s.countDraw.schedule = s.schedule := rfl

/-! ### Accessors -/

theorem State.getV_setV (x y : RegIdx) (b : Byte) : (s.setV x b).getV y = if y = x then b else s.getV y := by
  simp [State.getV, State.setV, Vector.getElem_set, Fin.ext_iff, eq_comm]

@[simp] theorem State.getV_setV_same (x : RegIdx) (b : Byte) : (s.setV x b).getV x = b := by
  simp [State.getV_setV]

@[simp] theorem State.getV_setV_other (x y : RegIdx) (b : Byte) (h : y ≠ x) : (s.setV x b).getV y = s.getV y := by
  simp [State.getV_setV, h]

@[simp] theorem State.memRead_setV (x : RegIdx) (b : Byte) (n : Nat) : (s.setV x b).memRead n = s.memRead n := rfl
@[simp] theorem State.pixel_setV (x : RegIdx) (b : Byte) (r c : Nat) : (s.setV x b).pixel r c = s.pixel r c := rfl
@[simp] theorem State.getV_setI (w : Word) (y : RegIdx) : (s.setI w).getV y = s.getV y := rfl
@[simp] theorem State.memRead_setI (w : Word) (n : Nat) : (s.setI w).memRead n = s.memRead n := rfl
@[simp] theorem State.pixel_setI (w : Word) (r c : Nat) : (s.setI w).pixel r c = s.pixel r c := rfl
@[simp] theorem State.getV_setPc (w : Word) (y : RegIdx) : (s.setPc w).getV y = s.getV y := rfl
@[simp] theorem State.memRead_setPc (w : Word) (n : Nat) : (s.setPc w).memRead n = s.memRead n := rfl
@[simp] theorem State.pixel_setPc (w : Word) (r c : Nat) : (s.setPc w).pixel r c = s.pixel r c := rfl
@[simp] theorem State.getV_advancePc (y : RegIdx) : s.advancePc.getV y = s.getV y := rfl
@[simp] theorem State.memRead_advancePc (n : Nat) : s.advancePc.memRead n = s.memRead n := rfl
@[simp] theorem State.pixel_advancePc (r c : Nat) : s.advancePc.pixel r c = s.pixel r c := rfl
@[simp] theorem State.getV_setDt (b : Byte) (y : RegIdx) : (s.setDt b).getV y = s.getV y := rfl
@[simp] theorem State.memRead_setDt (b : Byte) (n : Nat) : (s.setDt b).memRead n = s.memRead n := rfl
@[simp] theorem State.pixel_setDt (b : Byte) (r c : Nat) : (s.setDt b).pixel r c = s.pixel r c := rfl
@[simp] theorem State.getV_setSt (b : Byte) (y : RegIdx) : (s.setSt b).getV y = s.getV y := rfl
@[simp] theorem State.memRead_setSt (b : Byte) (n : Nat) : (s.setSt b).memRead n = s.memRead n := rfl
@[simp] theorem State.pixel_setSt (b : Byte) (r c : Nat) : (s.setSt b).pixel r c = s.pixel r c := rfl
@[simp] theorem State.getV_setMode (m : Mode) (y : RegIdx) : (s.setMode m).getV y = s.getV y := rfl
@[simp] theorem State.memRead_setMode (m : Mode) (n : Nat) : (s.setMode m).memRead n = s.memRead n := rfl
@[simp] theorem State.pixel_setMode (m : Mode) (r c : Nat) : (s.setMode m).pixel r c = s.pixel r c := rfl
@[simp] theorem State.getV_setDirty (b : Bool) (y : RegIdx) : (s.setDirty b).getV y = s.getV y := rfl
@[simp] theorem State.memRead_setDirty (b : Bool) (n : Nat) : (s.setDirty b).memRead n = s.memRead n := rfl
@[simp] theorem State.pixel_setDirty (b : Bool) (r c : Nat) : (s.setDirty b).pixel r c = s.pixel r c := rfl
@[simp] theorem State.getV_setFb (fb : Framebuffer) (y : RegIdx) : (s.setFb fb).getV y = s.getV y := rfl
@[simp] theorem State.memRead_setFb (fb : Framebuffer) (n : Nat) : (s.setFb fb).memRead n = s.memRead n := rfl
@[simp] theorem State.getV_setKey (k : Word) (y : RegIdx) : (s.setKey k).getV y = s.getV y := rfl
@[simp] theorem State.memRead_setKey (k : Word) (n : Nat) : (s.setKey k).memRead n = s.memRead n := rfl
@[simp] theorem State.pixel_setKey (k : Word) (r c : Nat) : (s.setKey k).pixel r c = s.pixel r c := rfl
@[simp] theorem State.getV_setSchedule (ms : List Move) (y : RegIdx) : (s.setSchedule ms).getV y = s.getV y := rfl
@[simp] theorem State.memRead_setSchedule (ms : List Move) (n : Nat) : (s.setSchedule ms).memRead n = s.memRead n := rfl
@[simp] theorem State.pixel_setSchedule (ms : List Move) (r c : Nat) : (s.setSchedule ms).pixel r c = s.pixel r c := rfl
@[simp] theorem State.getV_appendLog (a op : Word) (y : RegIdx) : (s.appendLog a op).getV y = s.getV y := rfl
@[simp] theorem State.memRead_appendLog (a op : Word) (n : Nat) : (s.appendLog a op).memRead n = s.memRead n := rfl
@[simp] theorem State.pixel_appendLog (a op : Word) (r c : Nat) : (s.appendLog a op).pixel r c = s.pixel r c := rfl
@[simp] theorem State.getV_setByte (a : Nat) (b : Byte) (y : RegIdx) : (s.setByte a b).getV y = s.getV y := rfl
@[simp] theorem State.pixel_setByte (a : Nat) (b : Byte) (r c : Nat) : (s.setByte a b).pixel r c = s.pixel r c := rfl
@[simp] theorem State.getV_countDraw (y : RegIdx) : s.countDraw.getV y = s.getV y := rfl
@[simp] theorem State.memRead_countDraw (n : Nat) : s.countDraw.memRead n = s.memRead n := rfl
@[simp] theorem State.pixel_countDraw (r c : Nat) : s.countDraw.pixel r c = s.pixel r c := rfl

@[simp] theorem State.pixel_setFb (fb : Framebuffer) (r c : Nat) : (s.setFb fb).pixel r c = fb.pixel r c := rfl

/-- A register file is what its registers hold. -/
theorem State.v_ext {s t : State} (h : ∀ j, t.getV j = s.getV j) : t.v = s.v :=
  Vector.ext fun k hk => h ⟨k, hk⟩

end Sys2Proof.Machine
end

