-- ==== Sys2Proof/Laws/Framebuffer.lean ====
section
/-! SUPPORT. The laws of the framebuffer: a pixel after a write, and what drawing columns and rows of a sprite does to every
pixel and to the collision bit. -/

namespace Sys2Proof.Machine

theorem PixelRow.getLsbD_setPixel (row : PixelRow) (c c' : Nat) (b : Bool) (hc : c < 64) :
    (PixelRow.setPixel row c b).getLsbD c' = if c' = c then b else row.getLsbD c' := by
  unfold PixelRow.setPixel
  by_cases h : c' = c
  · subst h
    cases b <;> simp [hc]
  · have : c ≠ c' := fun e => h e.symm
    cases b
    · by_cases h64 : c' < 64
      · simp [h, h64]
      · simp [h, h64, BitVec.getLsbD_of_ge row c' (by omega)]
    · simp [BitVec.getLsbD_twoPow, h, this]

/-- A pixel written is what a read of its place gives, with wrap, and every other pixel keeps its value. -/
theorem Framebuffer.pixel_setPixel (fb : Framebuffer) (r c r' c' : Nat) (b : Bool) :
    (fb.setPixel r c b).pixel r' c' = if r' % 32 = r % 32 ∧ c' % 64 = c % 64 then b else fb.pixel r' c' := by
  unfold Framebuffer.pixel Framebuffer.setPixel
  by_cases hr : r' % 32 = r % 32
  · simp only [hr, true_and, Vector.getElem_set_self]
    rw [PixelRow.getLsbD_setPixel _ _ _ _ (Nat.mod_lt _ (by decide))]
  · have : r % 32 ≠ r' % 32 := fun e => hr e.symm
    simp [hr, this]

theorem Framebuffer.pixel_clear (r c : Nat) : Framebuffer.clear.pixel r c = false := by
  simp [Framebuffer.clear, Framebuffer.pixel]

/-- A pixel read wraps (10_state.md R36). -/
theorem Framebuffer.pixel_mod (fb : Framebuffer) (r c : Nat) : fb.pixel (r % 32) (c % 64) = fb.pixel r c := by
  simp [Framebuffer.pixel]

/-- Two framebuffers with the same pixels are equal. -/
theorem Framebuffer.ext_pixel {fb fb' : Framebuffer} (h : ∀ r c, r < 32 → c < 64 → fb.pixel r c = fb'.pixel r c) :
    fb = fb' := by
  refine Vector.ext fun r hr => ?_
  refine BitVec.eq_of_getLsbD_eq fun c hc => ?_
  simpa [Framebuffer.pixel, Nat.mod_eq_of_lt hr, Nat.mod_eq_of_lt hc] using h r c hr hc

theorem Drawing.pixel_toggle (d : Drawing) (r c r' c' : Nat) :
    (d.toggle r c).fb.pixel r' c' = (d.fb.pixel r' c' ^^ (decide (r' % 32 = r % 32 ∧ c' % 64 = c % 64))) := by
  unfold Drawing.toggle
  simp only [Framebuffer.pixel_setPixel]
  by_cases h : r' % 32 = r % 32 ∧ c' % 64 = c % 64
  · simp only [h, and_self, if_true, decide_true]
    rw [← Framebuffer.pixel_mod d.fb r c, ← Framebuffer.pixel_mod d.fb r' c', h.1, h.2]
  · simp [h]

/-- The columns `c`, .., `c + k - 1` of a sprite row whose set bits land on column `c'` (41_display.md R111). -/
def columnHits (b : Byte) (col k c c' : Nat) : Bool :=
  (List.range k).any fun j => spriteBit b (c + j) && decide (c' % 64 = (col + (c + j)) % 64)

theorem columnHits_zero (b : Byte) (col c c' : Nat) : columnHits b col 0 c c' = false := rfl

theorem columnHits_succ (b : Byte) (col k c c' : Nat) :
    columnHits b col (k + 1) c c' =
      ((spriteBit b c && decide (c' % 64 = (col + c) % 64)) || columnHits b col k (c + 1) c') := by
  unfold columnHits
  rw [List.range_succ_eq_map, List.any_cons, List.any_map]
  congr 2
  funext j
  simp only [Function.comp_apply, Nat.succ_eq_add_one, Nat.add_assoc, Nat.add_comm 1 j]

theorem columnHits_true_iff (b : Byte) (col k c c' : Nat) :
    columnHits b col k c c' = true ↔ ∃ j < k, spriteBit b (c + j) = true ∧ c' % 64 = (col + (c + j)) % 64 := by
  simp [columnHits, List.any_eq_true]

/-- A column is not hit by a row that starts after it: at most 64 columns are drawn. -/
theorem columnHits_earlier (b : Byte) (col k c c' : Nat) (hk : c + 1 + k ≤ 64)
    (h : c' % 64 = (col + c) % 64) : columnHits b col k (c + 1) c' = false := by
  rw [Bool.eq_false_iff, Ne, columnHits_true_iff]
  rintro ⟨j, hj, -, h'⟩
  omega

/-- Drawing columns of a sprite row toggles exactly the pixels its set bits land on (R111). -/
theorem Drawing.pixel_columns (b : Byte) (row col k c r' c' : Nat) (d : Drawing) (hk : c + k ≤ 64) :
    (Drawing.columns b row col k c d).fb.pixel r' c' =
      (d.fb.pixel r' c' ^^ (decide (r' % 32 = row % 32) && columnHits b col k c c')) := by
  induction k generalizing c d with
  | zero => simp [Drawing.columns, columnHits_zero]
  | succ k ih =>
    rw [Drawing.columns, ih (c + 1) _ (by omega), columnHits_succ]
    by_cases hb : spriteBit b c
    · rw [if_pos hb, Drawing.pixel_toggle]
      by_cases hc : c' % 64 = (col + c) % 64
      · simp [hb, hc, columnHits_earlier b col k c c' (by omega) hc]
      · simp [hb, hc]
    · rw [if_neg hb]
      simp [hb]

/-- Drawing columns of a sprite row collides exactly where a set bit lands on a set pixel (R113). -/
theorem Drawing.collided_columns (b : Byte) (row col k c : Nat) (d : Drawing) (hk : c + k ≤ 64) :
    ((Drawing.columns b row col k c d).collided = true ↔
      d.collided = true ∨ ∃ j < k, spriteBit b (c + j) = true ∧ d.fb.pixel row (col + (c + j)) = true) := by
  induction k generalizing c d with
  | zero => simp [Drawing.columns]
  | succ k ih =>
    rw [Drawing.columns, ih (c + 1) _ (by omega)]
    have shift : ∀ P : Nat → Prop, (∃ j < k + 1, P j) ↔ P 0 ∨ ∃ j < k, P (j + 1) := fun P => by
      constructor
      · rintro ⟨_ | j, hj, hp⟩
        · exact .inl hp
        · exact .inr ⟨j, by omega, hp⟩
      · rintro (hp | ⟨j, hj, hp⟩)
        · exact ⟨0, by omega, hp⟩
        · exact ⟨j + 1, by omega, hp⟩
    rw [shift]
    have hj : ∀ j, c + 1 + j = c + (j + 1) := fun j => by omega
    by_cases hb : spriteBit b c
    · rw [if_pos hb]
      have keep : ∀ j < k, (d.toggle row (col + c)).fb.pixel row (col + (c + (j + 1))) =
          d.fb.pixel row (col + (c + (j + 1))) := fun j hjk => by
        rw [Drawing.pixel_toggle]
        have : ¬ (col + (c + (j + 1))) % 64 = (col + c) % 64 := by omega
        simp [this]
      have hcol : (d.toggle row (col + c)).collided = (d.collided || d.fb.pixel row (col + c)) := rfl
      simp only [hcol, Bool.or_eq_true, hj, Nat.add_zero, hb, true_and, or_assoc]
      refine or_congr_right (or_congr_right ?_)
      exact exists_congr fun j => and_congr_right fun hjk => by rw [keep j hjk]
    · rw [if_neg hb]
      simp [hb, hj]

/-- The set bits of sprite rows drawn from row `row` down that land on pixel (r', c') (R111). -/
def rowsHit (col : Nat) (bs : List Byte) (row r' c' : Nat) : Bool :=
  match bs with
  | [] => false
  | b :: bs => (decide (r' % 32 = row % 32) && columnHits b col 8 0 c') || rowsHit col bs (row + 1) r' c'

theorem rowsHit_true_iff (col : Nat) (bs : List Byte) (row r' c' : Nat) :
    rowsHit col bs row r' c' = true ↔
      ∃ k, ∃ h : k < bs.length, ∃ j < 8,
        spriteBit bs[k] j = true ∧ r' % 32 = (row + k) % 32 ∧ c' % 64 = (col + j) % 64 := by
  induction bs generalizing row with
  | nil => simp [rowsHit]
  | cons b bs ih =>
    simp only [rowsHit, Bool.or_eq_true, Bool.and_eq_true, decide_eq_true_eq, ih, columnHits_true_iff, Nat.zero_add]
    constructor
    · rintro (⟨hr, j, hj, hb, hc⟩ | ⟨k, hk, j, hj, hb, hr, hc⟩)
      · exact ⟨0, by simp, j, hj, hb, by simpa using hr, hc⟩
      · exact ⟨k + 1, by simpa using hk, j, hj, by simpa using hb, by omega, hc⟩
    · rintro ⟨_ | k, hk, j, hj, hb, hr, hc⟩
      · exact .inl ⟨by simpa using hr, j, hj, by simpa using hb, hc⟩
      · exact .inr ⟨k, by simpa using hk, j, hj, by simpa using hb, by omega, hc⟩

/-- A pixel row is not hit by sprite rows that start after it: at most 32 rows are drawn. -/
theorem rowsHit_earlier (col : Nat) (bs : List Byte) (row r' c' : Nat) (hn : 1 + bs.length ≤ 32)
    (h : r' % 32 = row % 32) : rowsHit col bs (row + 1) r' c' = false := by
  rw [Bool.eq_false_iff, Ne, rowsHit_true_iff]
  rintro ⟨k, hk, j, -, -, hr, -⟩
  omega

/-- Drawing a sprite toggles exactly the pixels its set bits land on (R111). -/
theorem Drawing.pixel_rows (col : Nat) (bs : List Byte) (row r' c' : Nat) (d : Drawing) (hn : bs.length ≤ 32) :
    (Drawing.rows col bs row d).fb.pixel r' c' = (d.fb.pixel r' c' ^^ rowsHit col bs row r' c') := by
  induction bs generalizing row d with
  | nil => simp [Drawing.rows, rowsHit]
  | cons b bs ih =>
    have hlen : bs.length + 1 ≤ 32 := by simpa using hn
    rw [Drawing.rows, ih (row + 1) _ (by omega), Drawing.pixel_columns b row col 8 0 r' c' d (by omega), rowsHit]
    by_cases hr : r' % 32 = row % 32
    · simp [hr, rowsHit_earlier col bs row r' c' (by omega) hr]
    · simp [hr]

/-- Drawing a sprite collides exactly where a set bit lands on a pixel that was set before the sprite (R111, R113). -/
theorem Drawing.collided_rows (col : Nat) (bs : List Byte) (row : Nat) (d : Drawing) (hn : bs.length ≤ 32) :
    ((Drawing.rows col bs row d).collided = true ↔
      d.collided = true ∨ ∃ k, ∃ h : k < bs.length, ∃ j < 8,
        spriteBit bs[k] j = true ∧ d.fb.pixel (row + k) (col + j) = true) := by
  induction bs generalizing row d with
  | nil => simp [Drawing.rows]
  | cons b bs ih =>
    have hlen : bs.length + 1 ≤ 32 := by simpa using hn
    rw [Drawing.rows, ih (row + 1) _ (by omega), Drawing.collided_columns b row col 8 0 d (by omega), or_assoc]
    refine or_congr_right ?_
    have keep : ∀ k < bs.length, ∀ j, (Drawing.columns b row col 8 0 d).fb.pixel (row + 1 + k) (col + j) =
        d.fb.pixel (row + (k + 1)) (col + j) := fun k hk j => by
      rw [Drawing.pixel_columns b row col 8 0 _ _ d (by omega)]
      have hrow : row + 1 + k = row + (k + 1) := by omega
      have : ¬ (row + (k + 1)) % 32 = row % 32 := by omega
      simp [hrow, this]
    constructor
    · rintro (⟨j, hj, hb, hp⟩ | ⟨k, hk, j, hj, hb, hp⟩)
      · exact ⟨0, by simp, j, hj, by simpa using hb, by simpa using hp⟩
      · exact ⟨k + 1, by simpa using hk, j, hj, by simpa using hb, by rwa [keep k hk j] at hp⟩
    · rintro ⟨_ | k, hk, j, hj, hb, hp⟩
      · exact .inl ⟨j, hj, by simpa using hb, by simpa using hp⟩
      · have hk' : k < bs.length := by simpa using hk
        exact .inr ⟨k, hk', j, hj, by simpa using hb, by rw [keep k hk' j]; exact hp⟩

end Sys2Proof.Machine
end

