-- ==== Sys2Proof/Laws/Memory.lean ====
section
/-! SUPPORT. The laws of memory: a read after a write, and the canonical form that every memory operation keeps. -/

namespace Sys2Proof.Machine

theorem Memory.lookup_insert (m : List Host.Cell) (a a' : Nat) (b : Byte) :
    Memory.lookup (Memory.insert m a b) a' = if a' = a then some b else Memory.lookup m a' := by
  induction m with
  | nil => by_cases h : a = a' <;> simp [Memory.insert, Memory.lookup, h, eq_comm]
  | cons c m ih =>
    unfold Memory.insert
    split
    · by_cases h : a = a' <;> simp [Memory.lookup, h, eq_comm]
    · split
      · rename_i h
        subst h
        by_cases h : c.1 = a'
        · simp [Memory.lookup, h]
        · have : a' ≠ c.1 := fun e => h e.symm
          simp [Memory.lookup, h, this]
      · by_cases h : c.1 = a'
        · subst h
          have : c.1 ≠ a := fun h => by omega
          simp [Memory.lookup, this]
        · simp [Memory.lookup, h, ih]

theorem Memory.lookup_erase (m : List Host.Cell) (a a' : Nat) :
    Memory.lookup (Memory.erase m a) a' = if a' = a then none else Memory.lookup m a' := by
  induction m with
  | nil => simp [Memory.erase, Memory.lookup]
  | cons c m ih =>
    unfold Memory.erase at ih ⊢
    by_cases hc : c.1 = a
    · by_cases h : a' = a
      · subst h
        simpa [hc] using ih
      · have : a ≠ a' := fun e => h e.symm
        simpa [hc, Memory.lookup, this, h] using ih
    · by_cases h : c.1 = a'
      · have : a' ≠ a := fun e => hc (h.trans e)
        simp [Memory.lookup, h, this]
      · simpa [hc, Memory.lookup, h] using ih

/-- A byte written is what a read of its address gives, and every other address reads as before. -/
theorem Memory.read_write (font : Font) (m : List Host.Cell) (a a' : Nat) (b : Byte) :
    Memory.read font (Memory.write font m a b) a' = if a' = a then b else Memory.read font m a' := by
  unfold Memory.write
  split
  · rename_i hb
    by_cases h : a' = a
    · subst h
      simp [Memory.read, Memory.lookup_erase, hb]
    · simp [Memory.read, Memory.lookup_erase, h]
  · by_cases h : a' = a <;> simp [Memory.read, Memory.lookup_insert, h]

theorem Memory.mem_insert {m : List Host.Cell} {a : Nat} {b : Byte} {c : Host.Cell}
    (h : c ∈ Memory.insert m a b) : c = (a, b) ∨ c ∈ m := by
  induction m with
  | nil => simpa [Memory.insert] using h
  | cons d m ih =>
    unfold Memory.insert at h
    split at h
    · simpa using h
    · split at h
      · rcases List.mem_cons.mp h with h | h
        · exact .inl h
        · exact .inr (List.mem_cons_of_mem _ h)
      · rcases List.mem_cons.mp h with h | h
        · exact .inr (h ▸ List.mem_cons_self)
        · exact (ih h).imp id (List.mem_cons_of_mem _)

theorem Memory.rising_insert (m : List Host.Cell) (a : Nat) (b : Byte)
    (h : m.Pairwise fun c d => c.1 < d.1) : (Memory.insert m a b).Pairwise fun c d => c.1 < d.1 := by
  induction m with
  | nil => simp [Memory.insert]
  | cons c m ih =>
    obtain ⟨hc, hm⟩ := List.pairwise_cons.mp h
    unfold Memory.insert
    split
    · rename_i ha
      refine List.pairwise_cons.mpr ⟨fun d hd => ?_, h⟩
      rcases List.mem_cons.mp hd with rfl | hd
      · exact ha
      · exact Nat.lt_trans ha (hc d hd)
    · split
      · rename_i ha
        exact List.pairwise_cons.mpr ⟨fun d hd => by simpa [ha] using hc d hd, hm⟩
      · rename_i h1 h2
        refine List.pairwise_cons.mpr ⟨fun d hd => ?_, ih hm⟩
        rcases Memory.mem_insert hd with rfl | hd
        · show c.1 < a
          omega
        · exact hc d hd

/-- A write inside the address space keeps the canonical form. -/
theorem Memory.wf_write {font : Font} {m : List Host.Cell} {a : Nat} (b : Byte)
    (h : Memory.wf font m) (ha : a < 4096) : Memory.wf font (Memory.write font m a b) := by
  unfold Memory.write
  split
  · exact ⟨h.1.filter _, fun c hc => h.2 c (List.mem_of_mem_filter hc)⟩
  · rename_i hb
    refine ⟨Memory.rising_insert m a b h.1, fun c hc => ?_⟩
    rcases Memory.mem_insert hc with rfl | hc
    · exact ⟨ha, hb⟩
    · exact h.2 c hc

theorem Memory.wf_nil (font : Font) : Memory.wf font [] := ⟨.nil, fun _ hc => nomatch hc⟩

theorem Memory.lookup_none_of_lt {m : List Host.Cell} {a : Nat} (h : ∀ c ∈ m, a < c.1) :
    Memory.lookup m a = none := by
  induction m with
  | nil => rfl
  | cons c m ih =>
    have : c.1 ≠ a := by have := h c List.mem_cons_self; omega
    simpa [Memory.lookup, this] using ih fun d hd => h d (List.mem_cons_of_mem _ hd)

/-- A listed cell is what its address looks up as. -/
theorem Memory.lookup_of_mem {m : List Host.Cell} (h : m.Pairwise fun c d => c.1 < d.1) {c : Host.Cell}
    (hc : c ∈ m) : Memory.lookup m c.1 = some c.2 := by
  induction m with
  | nil => cases hc
  | cons d m ih =>
    obtain ⟨hd, hm⟩ := List.pairwise_cons.mp h
    rcases List.mem_cons.mp hc with rfl | hc
    · simp [Memory.lookup]
    · have : d.1 ≠ c.1 := by have := hd c hc; omega
      simpa [Memory.lookup, this] using ih hm hc

/-- An address that looks up as nothing reads as its reset contents. -/
theorem Memory.read_of_lookup_none {font : Font} {m : List Host.Cell} {a : Nat} (h : Memory.lookup m a = none) :
    Memory.read font m a = Memory.resetByte font a := by
  simp [Memory.read, h]

theorem Memory.read_nil (font : Font) (a : Nat) : Memory.read font [] a = Memory.resetByte font a := rfl

end Sys2Proof.Machine
end

