-- ==== Sys2Proof/Laws/Ops.lean ====
section
/-! SUPPORT. One lemma per shared operation that says everything it can do: registers, stack, memory stores and loads,
skips, the two writes of a flag instruction, drawing. -/

namespace Sys2Proof.Machine

variable (s : State)

/-! ### Registers -/

theorem mask12_toNat (w : Word) : (mask12 w).toNat = w.toNat % 4096 := by
  unfold mask12
  rw [BitVec.toNat_and]
  exact Nat.and_two_pow_sub_one_eq_mod w.toNat 12

theorem mask12_le (w : Word) : (mask12 w).toNat ≤ 0xFFF := by
  rw [mask12_toNat]
  omega

theorem zextNnn_toNat (nnn : BitVec 12) : (zextNnn nnn).toNat = nnn.toNat := by
  have := nnn.isLt
  simp only [zextNnn, BitVec.toNat_setWidth]
  omega

theorem zextByte_toNat (b : Byte) : (zextByte b).toNat = b.toNat := by
  have := b.isLt
  simp only [zextByte, BitVec.toNat_setWidth]
  omega

theorem flagByte_eq_bit (b : Bool) : flagByte b = bit b := rfl

/-- A register write is a change of V alone. -/
theorem State.setV_eq (x : RegIdx) (b : Byte) : s.setV x b = { s with v := s.v.set x.val b } := rfl

/-- Setting a register to what it holds changes nothing. -/
theorem State.setV_getV (x : RegIdx) : s.setV x (s.getV x) = s := by
  simp [State.setV, State.getV]

/-! ### Skips and I after Fx55, Fx65 -/

/-- A skip changes PC alone, by 2 when its condition holds. -/
theorem State.skipIf_eq (c : Bool) : s.skipIf c = { s with pc := if c then s.pc + 2 else s.pc } := by
  cases c <;> rfl

/-- P_LDST_I changes I alone (44_index_memory.md R176). -/
theorem State.advanceI_eq (i : Word) (x : RegIdx) :
    s.advanceI i x = { s with
      i := if s.params.ldstI = .increment then mask12 (i + BitVec.ofNat 16 (x.val + 1)) else s.i } := by
  unfold State.advanceI
  cases h : s.params.ldstI <;> simp [State.setI]

/-! ### Faults -/

@[simp] theorem finish_ok (t : State) : finish (.ok t) s = .next t := rfl

@[simp] theorem finish_error (c : Cause) : finish (.error c) s = .next (s.setMode (.halted c)) := rfl

/-- Taking a fatal fault asserts the outputs `fault` and `fault_cause` (60_exceptions.md R218). -/
theorem faultCause_setMode_halted (c : Cause) :
    (s.setMode (.halted c)).faultCause = c.code ∧ (s.setMode (.halted c)).faultAsserted = true := by
  constructor
  · rfl
  · cases c <;> rfl

/-! ### Call stack -/

theorem State.push_of_lt (w : Word) (h : s.sp.val < 16) :
    s.push w = .ok { s with stack := s.stack.set s.sp.val w, sp := ⟨s.sp.val + 1, by omega⟩ } := dif_pos h

theorem State.push_of_full (w : Word) (h : s.sp.val = 16) :
    s.push w = .error (.stackOverflow s.instrAddr) := dif_neg (by omega)

theorem State.pop_of_pos (h : 0 < s.sp.val) :
    s.pop = .ok (s.stack[s.sp.val - 1], { s with sp := ⟨s.sp.val - 1, by omega⟩ }) := dif_pos h

theorem State.pop_of_empty (h : s.sp.val = 0) : s.pop = .error (.stackUnderflow s.instrAddr) :=
  dif_neg (by omega)

/-! ### Memory -/

/-- What a change of memory alone keeps: every other field, the canonical form, and the region below 0x200 unless
P_LOW_WRITE = `write`. -/
structure OnlyMemory (s t : State) : Prop where
  frame : t = { s with mem := t.mem }
  wf    : Memory.wf s.params.font s.mem → Memory.wf s.params.font t.mem
  low   : s.params.lowWrite ≠ .write → s.LowIntact → t.LowIntact

theorem OnlyMemory.refl : OnlyMemory s s := ⟨rfl, id, fun _ => id⟩

theorem OnlyMemory.params {s t : State} (h : OnlyMemory s t) : t.params = s.params := by
  rw [h.frame]

theorem OnlyMemory.trans {s t u : State} (h : OnlyMemory s t) (g : OnlyMemory t u) : OnlyMemory s u where
  frame := by rw [g.frame, h.frame]
  wf := fun w => h.params ▸ g.wf (h.params ▸ h.wf w)
  low := fun p l => g.low (h.params ▸ p) (h.low p l)

theorem State.memRead_setByte (a a' : Nat) (b : Byte) :
    (s.setByte a b).memRead a' = if a' % 4096 = a then b else s.memRead a' :=
  Memory.read_write s.params.font s.mem a (a' % 4096) b

theorem State.memRead_mod (a : Nat) : s.memRead (a % 4096) = s.memRead a := by
  simp [State.memRead]

theorem State.memRead_byteAddr (base : Word) (k : Nat) : s.memRead (byteAddr base k) = s.memRead (base.toNat + k) :=
  s.memRead_mod _

theorem byteAddr_lt (base : Word) (k : Nat) : byteAddr base k < 4096 := Nat.mod_lt _ (by decide)

/-- Placing a byte at 0x200 or above, or anywhere under P_LOW_WRITE = `write`, changes memory alone. -/
theorem State.setByte_onlyMemory (a : Nat) (b : Byte) (ha : a < 4096)
    (h : 0x200 ≤ a ∨ s.params.lowWrite = .write) : OnlyMemory s (s.setByte a b) where
  frame := rfl
  wf := fun w => Memory.wf_write b w ha
  low := fun p l c hc => by
    have : ¬ c % 4096 = a := by have := h.resolve_right p; omega
    rw [State.memRead_setByte, if_neg this]
    exact l c hc

/-- MemWrite of an address that P_LOW_WRITE does not refuse (20_memory.md R53). -/
theorem State.memWrite_allowed (a : Nat) (b : Byte) (h : s.params.lowWrite = .fault → 0x200 ≤ a % 4096) :
    ∃ t, s.memWrite a b = .ok t ∧ OnlyMemory s t ∧
      ∀ a', t.memRead a' = if a' % 4096 = a % 4096 then storedByte s (a % 4096) b else s.memRead a' := by
  unfold State.memWrite storedByte
  have hlt : a % 4096 < 4096 := Nat.mod_lt _ (by decide)
  by_cases ha : 0x200 ≤ a % 4096
  · rw [if_pos ha]
    exact ⟨_, rfl, s.setByte_onlyMemory _ _ hlt (.inl ha), fun a' => by simp [State.memRead_setByte, ha]⟩
  · rw [if_neg ha]
    cases hp : s.params.lowWrite with
    | fault => exact absurd (h hp) ha
    | write => exact ⟨_, rfl, s.setByte_onlyMemory _ _ hlt (.inr hp), fun a' => by simp [State.memRead_setByte]⟩
    | ignore =>
      refine ⟨_, rfl, .refl s, fun a' => ?_⟩
      split
      · rename_i he
        rw [if_neg (by simp [ha]), ← s.memRead_mod a', he]
      · rfl

/-- A run of stores that P_LOW_WRITE does not refuse writes each byte at its own address and no other byte. -/
theorem State.memWrites_allowed (bs : List Byte) (a : Nat) (hn : bs.length ≤ 4096)
    (h : s.params.lowWrite = .fault → ∀ k < bs.length, 0x200 ≤ (a + k) % 4096) :
    ∃ t, s.memWrites a bs = .ok t ∧ OnlyMemory s t ∧
      (∀ k, (hk : k < bs.length) → t.memRead (a + k) = storedByte s ((a + k) % 4096) bs[k]) ∧
      (∀ a', (∀ k < bs.length, a' % 4096 ≠ (a + k) % 4096) → t.memRead a' = s.memRead a') := by
  induction bs generalizing s a with
  | nil => exact ⟨s, rfl, .refl s, fun k hk => absurd hk (by simp), fun _ _ => rfl⟩
  | cons b bs ih =>
    have hlen : bs.length + 1 ≤ 4096 := by simpa using hn
    obtain ⟨t, ht, hst, hread⟩ := s.memWrite_allowed a b fun p => by simpa using h p 0 (by simp)
    have hpt : t.params = s.params := hst.params
    obtain ⟨u, hu, htu, hin, hout⟩ := ih t (a + 1) (by omega) fun p k hk => by
      have := h (hpt ▸ p) (k + 1) (by simpa using hk)
      rwa [Nat.add_assoc, Nat.add_comm 1 k]
    refine ⟨u, ?_, hst.trans htu, fun k hk => ?_, fun a' ha' => ?_⟩
    · simp only [State.memWrites, ht, hu]
    · cases k with
      | zero =>
        rw [hout (a + 0) fun k hk' => by omega, hread]
        simp
      | succ k =>
        have hk' : k < bs.length := by simpa using hk
        have := hin k hk'
        rw [Nat.add_assoc, Nat.add_comm 1 k] at this
        rw [this, List.getElem_cons_succ]
        unfold storedByte
        rw [hpt]
        split
        · rfl
        · rw [hread, if_neg (by omega)]
    · rw [hout a' fun k hk => by
        have := ha' (k + 1) (by simpa using hk)
        rwa [Nat.add_assoc, Nat.add_comm 1 k]]
      have := ha' 0 (by simp)
      rw [hread, if_neg (by simpa using this)]

/-- The first refused address of a store, if P_LOW_WRITE = `fault` refuses one. -/
theorem State.protectedAddr_eq_some (n a : Nat) :
    s.protectedAddr s.i n = some a ↔ s.params.lowWrite = .fault ∧ firstProtected s n a := by
  unfold State.protectedAddr
  cases hp : s.params.lowWrite with
  | fault =>
    simp only [List.find?_eq_some_iff_getElem, List.length_map, List.length_range, List.getElem_map,
      List.getElem_range, firstProtected, true_and, decide_eq_true_eq]
    constructor
    · rintro ⟨ha, k, hk, rfl, hj⟩
      exact ⟨k, hk, rfl, ha, fun j hjk => by have := hj j hjk; simpa using this⟩
    · rintro ⟨k, hk, rfl, ha, hj⟩
      exact ⟨ha, k, hk, rfl, fun j hjk => by have := hj j hjk; simpa using this⟩
  | write => simp
  | ignore => simp

/-- No address of a store is refused exactly if the store is allowed. -/
theorem State.protectedAddr_eq_none (n : Nat) : s.protectedAddr s.i n = none ↔ storeAllowed s n := by
  unfold State.protectedAddr storeAllowed
  cases hp : s.params.lowWrite with
  | fault =>
    simp only [List.find?_eq_none, List.forall_mem_map, List.mem_range, decide_eq_true_eq, Nat.not_lt, forall_const]
  | write => exact ⟨fun _ h => (nomatch h), fun _ => rfl⟩
  | ignore => exact ⟨fun _ h => (nomatch h), fun _ => rfl⟩

/-- A store at I is either allowed, and then changes memory alone, or refused at its first protected address. -/
theorem State.storeBytes_allowed (bs : List Byte) (hn : bs.length ≤ 4096) (h : storeAllowed s bs.length) :
    ∃ t, s.storeBytes s.i bs = .ok t ∧ OnlyMemory s t ∧
      (∀ k, (hk : k < bs.length) → t.memRead (byteAddr s.i k) = storedByte s (byteAddr s.i k) bs[k]) ∧
      (∀ a, a % 4096 ∉ addrsFrom s.i bs.length → t.memRead a = s.memRead a) := by
  obtain ⟨t, ht, hst, hin, hout⟩ := s.memWrites_allowed bs s.i.toNat hn h
  refine ⟨t, ?_, hst, fun k hk => ?_, fun a ha => hout a fun k hk e => ha ?_⟩
  · unfold State.storeBytes
    rw [(s.protectedAddr_eq_none _).mpr h]
    exact ht
  · rw [State.memRead_byteAddr]
    exact hin k hk
  · exact List.mem_map.mpr ⟨k, List.mem_range.mpr hk, e.symm⟩

theorem State.storeBytes_refused (bs : List Byte) (a : Nat) (hp : s.params.lowWrite = .fault)
    (h : firstProtected s bs.length a) :
    s.storeBytes s.i bs = .error (.protectedWrite s.instrAddr a) := by
  unfold State.storeBytes
  rw [(s.protectedAddr_eq_some _ a).mpr ⟨hp, h⟩]

theorem State.storeBytes_cases (bs : List Byte) (hn : bs.length ≤ 4096) :
    (∃ t, s.storeBytes s.i bs = .ok t ∧ OnlyMemory s t ∧ storeAllowed s bs.length ∧
      ∀ a, a % 4096 ∉ addrsFrom s.i bs.length → t.memRead a = s.memRead a) ∨
    (∃ a, s.storeBytes s.i bs = .error (.protectedWrite s.instrAddr a) ∧ s.params.lowWrite = .fault ∧
      firstProtected s bs.length a) := by
  cases h : s.protectedAddr s.i bs.length with
  | none =>
    have ha := (s.protectedAddr_eq_none _).mp h
    obtain ⟨t, ht, hst, -, hout⟩ := s.storeBytes_allowed bs hn ha
    exact .inl ⟨t, ht, hst, ha, hout⟩
  | some a =>
    obtain ⟨hp, ha⟩ := (s.protectedAddr_eq_some _ a).mp h
    exact .inr ⟨a, s.storeBytes_refused bs a hp ha, hp, ha⟩

theorem regsThrough_length (x : RegIdx) : (regsThrough x s).length = x.val + 1 := by
  have := x.isLt
  simp only [regsThrough, List.length_take, Vector.length_toList]
  omega

theorem regsThrough_getElem (x : RegIdx) (k : Nat) (hk : k < (regsThrough x s).length) :
    (regsThrough x s)[k] = s.getV ⟨k, by rw [regsThrough_length] at hk; omega⟩ := by
  simp [regsThrough, State.getV]

/-- LD Vx, [I] changes V alone: V0..Vk hold the bytes read, the others what they held (44_index_memory.md R175). -/
theorem State.loadV_spec (base : Word) (k : Nat) (hk : k < 16) :
    s.loadV base k = { s with v := (s.loadV base k).v } ∧
    ∀ j : RegIdx, (s.loadV base k).getV j = if j.val ≤ k then s.memRead (byteAddr base j.val) else s.getV j := by
  induction k with
  | zero =>
    refine ⟨rfl, fun j => ?_⟩
    have h0 : j = regIdx 0 ↔ j.val ≤ 0 := Fin.ext_iff.trans Nat.le_zero.symm
    simp only [State.loadV, State.getV_setV, h0]
    split
    · have : j.val = 0 := by omega
      rw [this]
    · rfl
  | succ k ih =>
    obtain ⟨hf, hv⟩ := ih (by omega)
    constructor
    · have : s.loadV base (k + 1) = (s.loadV base k).setV (regIdx (k + 1)) (s.memRead (byteAddr base (k + 1))) := rfl
      rw [this, hf]
      rfl
    · intro j
      have hj : j = regIdx (k + 1) ↔ j.val = k + 1 := by
        rw [Fin.ext_iff, regIdx, Fin.val_ofNat, Nat.mod_eq_of_lt hk]
      simp only [State.loadV, State.getV_setV, hv, hj]
      by_cases h1 : j.val = k + 1
      · simp [h1]
      · have : j.val ≤ k + 1 ↔ j.val ≤ k := by omega
        simp [h1, this]

/-! ### Flag instructions -/

/-- ADD's two writes change V alone; VF holds the flag, and Vx the result unless it is VF (43_alu.md R147). -/
theorem State.getV_resultThenFlag (x j : RegIdx) (r f : Byte) :
    (s.resultThenFlag x r f).getV j = if j = vf then f else if j = x then r else s.getV j := by
  simp only [State.resultThenFlag, State.getV_setV]

theorem State.resultThenFlag_eq (x : RegIdx) (r f : Byte) :
    s.resultThenFlag x r f = { s with v := (s.resultThenFlag x r f).v } := rfl

/-- The two writes of SUB, SHR, SUBN and SHL change V alone (43_alu.md R140). -/
theorem State.flagAndResult_eq (f r : Byte → Byte → Byte) (x y : RegIdx) :
    s.flagAndResult f r x y = { s with v := (s.flagAndResult f r x y).v } := by
  unfold State.flagAndResult
  cases s.params.vfOrder <;> rfl

/-- Every register after those two writes, under each P_VF_ORDER (43_alu.md R140). -/
theorem State.getV_flagAndResult (f r : Byte → Byte → Byte) (x y j : RegIdx) :
    (s.flagAndResult f r x y).getV j =
      let flag := f (s.getV x) (s.getV y)
      match s.params.vfOrder with
      | .latchedTableOrder => if j = x then r (s.getV x) (s.getV y) else if j = vf then flag else s.getV j
      | .latchedFlagLast => if j = vf then flag else if j = x then r (s.getV x) (s.getV y) else s.getV j
      | .sequentialReread =>
        if j = x then r (if x = vf then flag else s.getV x) (if y = vf then flag else s.getV y)
        else if j = vf then flag else s.getV j := by
  unfold State.flagAndResult
  cases s.params.vfOrder <;> simp only [State.getV_setV, State.getV_resultThenFlag]

/-! ### Keys and drawing -/

theorem keyIndex_of_lt {vx : Byte} (h : vx.toNat < 16) : keyIndex vx = some ⟨vx.toNat, h⟩ := dif_pos h

theorem keyIndex_of_ge {vx : Byte} (h : 15 < vx.toNat) : keyIndex vx = none := dif_neg (by omega)

theorem mem_newlyPressed (prev now : Word) (k : RegIdx) : k ∈ newlyPressed prev now ↔ pressedSince prev now k := by
  simp [newlyPressed, pressedSince]

/-- The key chosen among several is one of them (45_keys_timers.md R195). -/
theorem State.chooseKey_mem (k : RegIdx) (ks : List RegIdx) : s.chooseKey k ks ∈ k :: ks := by
  unfold State.chooseKey
  have h : Config.keyChoice s.draws % (ks.length + 1) < (k :: ks).length := by
    simpa using Nat.mod_lt _ (Nat.succ_pos _)
  rw [List.getD_eq_getElem _ _ h]
  exact List.getElem_mem h

/-- A wait step either keeps waiting with the new sample, or ends the wait with a newly pressed key. -/
theorem State.waitStep_cases (x : RegIdx) (prev : Word) :
    ((∀ k, ¬ pressedSince prev s.key k) ∧ s.waitStep x prev = s.setMode (.waitingForKey x s.key)) ∨
    (∃ k, pressedSince prev s.key k ∧
      (s.waitStep x prev = s.endWait x k ∨ s.waitStep x prev = (s.endWait x k).countDraw)) := by
  unfold State.waitStep
  cases h : newlyPressed prev s.key with
  | nil => exact .inl ⟨fun k hk => by simpa [h] using (mem_newlyPressed prev s.key k).mpr hk, rfl⟩
  | cons k ks =>
    right
    cases ks with
    | nil => exact ⟨k, (mem_newlyPressed _ _ _).mp (h ▸ List.mem_cons_self), .inl rfl⟩
    | cons k' ks =>
      exact ⟨_, (mem_newlyPressed _ _ _).mp (h ▸ s.chooseKey_mem k (k' :: ks)), .inr rfl⟩

theorem State.memReads_length (base : Word) (n : Nat) : (s.memReads base n).length = n := by
  simp [State.memReads]

theorem State.memReads_getElem (base : Word) (n k : Nat) (hk : k < (s.memReads base n).length) :
    (s.memReads base n)[k] = s.memRead (byteAddr base k) := by
  simp [State.memReads]

/-- The sprite DRW draws sets exactly the pixels `spriteSets` names (41_display.md R111). -/
theorem rowsHit_iff_spriteSets (x y : RegIdx) (n : Fin 16) (r c : Nat) :
    rowsHit (s.getV x).toNat (s.memReads s.i n.val) (s.getV y).toNat r c = true ↔ spriteSets s x y n r c := by
  rw [rowsHit_true_iff]
  unfold spriteSets spriteBit
  constructor
  · rintro ⟨k, hk, j, hj, hb, hr, hc⟩
    rw [State.memReads_getElem] at hb
    exact ⟨k, by simpa [State.memReads_length] using hk, j, hj, hb, hr, hc⟩
  · rintro ⟨k, hk, j, hj, hb, hr, hc⟩
    exact ⟨k, by simpa [State.memReads_length] using hk, j, hj, by rwa [State.memReads_getElem], hr, hc⟩

/-- What drawing the sprite of DRW does to every pixel (41_display.md R111). -/
theorem State.pixel_drawSprite (x y : RegIdx) (n : Fin 16) (r c : Nat) :
    (s.drawSprite (s.memReads s.i n.val) (s.getV y).toNat (s.getV x).toNat).fb.pixel r c =
      (s.pixel r c ^^ rowsHit (s.getV x).toNat (s.memReads s.i n.val) (s.getV y).toNat r c) := by
  unfold State.drawSprite
  rw [Drawing.pixel_rows _ _ _ _ _ _ (by rw [State.memReads_length]; omega)]
  rfl

/-- When drawing the sprite of DRW collides (41_display.md R113). -/
theorem State.collided_drawSprite (x y : RegIdx) (n : Fin 16) :
    (s.drawSprite (s.memReads s.i n.val) (s.getV y).toNat (s.getV x).toNat).collided = true ↔
      ∃ r c, spriteSets s x y n r c ∧ s.pixel r c = true := by
  unfold State.drawSprite
  rw [Drawing.collided_rows _ _ _ _ (by rw [State.memReads_length]; omega)]
  simp only [Bool.false_eq_true, false_or]
  constructor
  · rintro ⟨k, hk, j, hj, hb, hp⟩
    rw [State.memReads_getElem] at hb
    exact ⟨_, _, ⟨k, by simpa [State.memReads_length] using hk, j, hj, hb, rfl, rfl⟩, hp⟩
  · rintro ⟨r, c, ⟨k, hk, j, hj, hb, hr, hc⟩, hp⟩
    refine ⟨k, by simpa [State.memReads_length] using hk, j, hj, by rwa [State.memReads_getElem], ?_⟩
    show Framebuffer.pixel s.fb _ _ = true
    have hp' : Framebuffer.pixel s.fb r c = true := hp
    rwa [← Framebuffer.pixel_mod, ← hr, ← hc, Framebuffer.pixel_mod]

end Sys2Proof.Machine
end

