-- ==== Sys2Proof/Laws/Exec.lean ====
section
/-! SUPPORT. What every instruction does to the fields the invariants speak of, and to MODE: proved once per instruction,
so that no invariant unfolds a meaning again. -/

namespace Sys2Proof.Machine

/-- What executing an instruction does to the fields the invariants speak of. -/
structure Effect (s t : State) : Prop where
  params   : t.params = s.params
  schedule : t.schedule = s.schedule
  key      : t.key = s.key
  log      : t.log = s.log
  wf       : Memory.wf s.params.font s.mem → Memory.wf s.params.font t.mem
  low      : s.params.lowWrite ≠ .write → s.LowIntact → t.LowIntact
  index    : t.i = s.i ∨ ∃ w, t.i = mask12 w

/-- A change of none of memory, I, KEY, LOG, parameters and schedule. -/
theorem Effect.of_same {s t : State} (hm : t.mem = s.mem) (hi : t.i = s.i ∨ ∃ w, t.i = mask12 w)
    (hk : t.key = s.key) (hl : t.log = s.log) (hp : t.params = s.params) (hs : t.schedule = s.schedule) :
    Effect s t where
  params := hp
  schedule := hs
  key := hk
  log := hl
  wf := fun w => hm ▸ w
  low := fun _ l a ha => by
    have := l a ha
    unfold State.memRead at this ⊢
    rw [hm, hp, this]
  index := hi

theorem Effect.of_onlyMemory {s t : State} (h : OnlyMemory s t) : Effect s t where
  params := h.params
  schedule := by rw [h.frame]
  key := by rw [h.frame]
  log := by rw [h.frame]
  wf := h.wf
  low := h.low
  index := .inl (by rw [h.frame])

/-- I may change after the rest, as P_LDST_I says. -/
theorem Effect.advanceI {s t : State} (h : Effect s t) (i : Word) (x : RegIdx) : Effect s (t.advanceI i x) := by
  rw [State.advanceI_eq]
  refine ⟨h.params, h.schedule, h.key, h.log, h.wf, h.low, ?_⟩
  show (if t.params.ldstI = .increment then _ else t.i) = s.i ∨ ∃ w, (if t.params.ldstI = .increment then _ else t.i) = mask12 w
  split
  · exact .inr ⟨_, rfl⟩
  · exact h.index

theorem Effect.setMode {s t : State} (h : Effect s t) (m : Mode) : Effect s (t.setMode m) :=
  ⟨h.params, h.schedule, h.key, h.log, h.wf, h.low, h.index⟩

theorem Effect.refl (s : State) : Effect s s := .of_same rfl (.inl rfl) rfl rfl rfl rfl

/-- A state that differs from `s` in V, PC, SP, STACK, timers, display or draws only. -/
theorem Effect.of_setV (s : State) (x : RegIdx) (b : Byte) : Effect s (s.setV x b) :=
  .of_same rfl (.inl rfl) rfl rfl rfl rfl

theorem Effect.of_skipIf (s : State) (c : Bool) : Effect s (s.skipIf c) := by
  rw [State.skipIf_eq]
  exact .of_same rfl (.inl rfl) rfl rfl rfl rfl

theorem Effect.of_flagAndResult (s : State) (f r : Byte → Byte → Byte) (x y : RegIdx) :
    Effect s (s.flagAndResult f r x y) := by
  rw [State.flagAndResult_eq]
  exact .of_same rfl (.inl rfl) rfl rfl rfl rfl

/-- How executing an instruction can change MODE: not at all, to the key wait by LD Vx, K, or to Halted. -/
def ModeEffect (ins : Instr) (s t : State) : Prop :=
  t.mode = s.mode ∨ (∃ x, ins = .ldVxK x ∧ t.mode = .waitingForKey x s.key) ∨ ∃ c, t.mode = .halted c

/-- A store instruction with `n` bytes, its effect and its mode. -/
theorem storeBytes_effect (s : State) (bs : List Byte) (hn : bs.length ≤ 4096) :
    (∃ t, s.storeBytes s.i bs = .ok t ∧ Effect s t ∧ t.mode = s.mode) ∨
    (∃ c, s.storeBytes s.i bs = .error c) := by
  rcases s.storeBytes_cases bs hn with ⟨t, ht, hm, -, -⟩ | ⟨a, ha, -, -⟩
  · exact .inl ⟨t, ht, .of_onlyMemory hm, by rw [hm.frame]⟩
  · exact .inr ⟨_, ha⟩

/-! ### The instructions with a check of their own, on each side of it -/

section Checked

variable (s : State)

theorem exec_ret_of_pos (h : 0 < s.sp.val) :
    exec .ret s = .next { s with pc := s.stack[s.sp.val - 1], sp := ⟨s.sp.val - 1, by omega⟩ } := by
  simp only [exec, execRet, s.pop_of_pos h, finish_ok, State.setPc]

theorem exec_ret_of_empty (h : s.sp.val = 0) :
    exec .ret s = .next (s.setMode (.halted (.stackUnderflow s.instrAddr))) := by
  simp only [exec, execRet, s.pop_of_empty h, finish_error]

theorem exec_call_of_lt (nnn : BitVec 12) (h : s.sp.val < 16) :
    exec (.call nnn) s = .next { s with
      pc := zextNnn nnn, stack := s.stack.set s.sp.val s.pc, sp := ⟨s.sp.val + 1, by omega⟩ } := by
  simp only [exec, execCall, s.push_of_lt _ h, finish_ok, State.setPc]

theorem exec_call_of_full (nnn : BitVec 12) (h : s.sp.val = 16) :
    exec (.call nnn) s = .next (s.setMode (.halted (.stackOverflow s.instrAddr))) := by
  simp only [exec, execCall, s.push_of_full _ h, finish_error]

theorem exec_skp_of_le (x : RegIdx) (h : (s.getV x).toNat ≤ 15) :
    exec (.skp x) s = .next (s.skipIf (s.key.getLsbD (s.getV x).toNat == true)) := by
  simp only [exec, execSkp, State.skipIfKey, keyIndex_of_lt (show (s.getV x).toNat < 16 by omega), finish_ok]

theorem exec_skp_of_gt (x : RegIdx) (h : 15 < (s.getV x).toNat) :
    exec (.skp x) s = .next (s.setMode (.halted (.keyIndexOutOfRange s.instrAddr (s.getV x)))) := by
  simp only [exec, execSkp, State.skipIfKey, keyIndex_of_ge h, finish_error]

theorem exec_sknp_of_le (x : RegIdx) (h : (s.getV x).toNat ≤ 15) :
    exec (.sknp x) s = .next (s.skipIf (s.key.getLsbD (s.getV x).toNat == false)) := by
  simp only [exec, execSknp, State.skipIfKey, keyIndex_of_lt (show (s.getV x).toNat < 16 by omega), finish_ok]

theorem exec_sknp_of_gt (x : RegIdx) (h : 15 < (s.getV x).toNat) :
    exec (.sknp x) s = .next (s.setMode (.halted (.keyIndexOutOfRange s.instrAddr (s.getV x)))) := by
  simp only [exec, execSknp, State.skipIfKey, keyIndex_of_ge h, finish_error]

theorem exec_ldB_of_ok {x : RegIdx} {t : State} (h : s.storeBytes s.i (decimalDigits (s.getV x)) = .ok t) :
    exec (.ldB x) s = .next t := by
  simp only [exec, execLdB, h, finish_ok]

theorem exec_ldB_of_error {x : RegIdx} {c : Cause} (h : s.storeBytes s.i (decimalDigits (s.getV x)) = .error c) :
    exec (.ldB x) s = .next (s.setMode (.halted c)) := by
  simp only [exec, execLdB, h, finish_error]

theorem exec_storeRegs_of_ok {x : RegIdx} {t : State} (h : s.storeBytes s.i (regsThrough x s) = .ok t) :
    exec (.storeRegs x) s = .next (t.advanceI s.i x) := by
  simp only [exec, execStoreRegs, h, finish_ok]

theorem exec_storeRegs_of_error {x : RegIdx} {c : Cause} (h : s.storeBytes s.i (regsThrough x s) = .error c) :
    exec (.storeRegs x) s = .next (s.setMode (.halted c)) := by
  simp only [exec, execStoreRegs, h, finish_error]

end Checked

/-- Every instruction answers a next state, with no more than this effect on the fields the invariants speak of. -/
theorem exec_effect (ins : Instr) (s : State) : ∃ t, exec ins s = .next t ∧ Effect s t ∧ ModeEffect ins s t := by
  have same : ∀ t : State, exec ins s = .next t → t.mem = s.mem → (t.i = s.i ∨ ∃ w, t.i = mask12 w) →
      t.key = s.key → t.log = s.log → t.params = s.params → t.schedule = s.schedule → t.mode = s.mode →
      ∃ t, exec ins s = .next t ∧ Effect s t ∧ ModeEffect ins s t :=
    fun t h hm hi hk hl hp hs hmode => ⟨t, h, .of_same hm hi hk hl hp hs, .inl hmode⟩
  have skip : ∀ c : Bool, exec ins s = .next (s.skipIf c) →
      ∃ t, exec ins s = .next t ∧ Effect s t ∧ ModeEffect ins s t :=
    fun c h => ⟨_, h, .of_skipIf s c, .inl (by rw [State.skipIf_eq])⟩
  have flag : ∀ f r x y, exec ins s = .next (s.flagAndResult f r x y) →
      ∃ t, exec ins s = .next t ∧ Effect s t ∧ ModeEffect ins s t :=
    fun f r x y h => ⟨_, h, .of_flagAndResult s f r x y, .inl (by rw [State.flagAndResult_eq])⟩
  have halt : ∀ c, exec ins s = .next (s.setMode (.halted c)) →
      ∃ t, exec ins s = .next t ∧ Effect s t ∧ ModeEffect ins s t :=
    fun c h => ⟨_, h, (Effect.refl s).setMode _, .inr (.inr ⟨c, rfl⟩)⟩
  cases ins with
  | cls => exact same _ rfl rfl (.inl rfl) rfl rfl rfl rfl rfl
  | ret =>
    by_cases h : 0 < s.sp.val
    · exact same _ (exec_ret_of_pos s h) rfl (.inl rfl) rfl rfl rfl rfl rfl
    · exact halt _ (exec_ret_of_empty s (by omega))
  | jp nnn => exact same _ rfl rfl (.inl rfl) rfl rfl rfl rfl rfl
  | call nnn =>
    by_cases h : s.sp.val < 16
    · exact same _ (exec_call_of_lt s nnn h) rfl (.inl rfl) rfl rfl rfl rfl rfl
    · exact halt _ (exec_call_of_full s nnn (by omega))
  | seByte x nn => exact skip _ rfl
  | sneByte x nn => exact skip _ rfl
  | seReg x y n => exact skip _ rfl
  | ldByte x nn => exact same _ rfl rfl (.inl rfl) rfl rfl rfl rfl rfl
  | addByte x nn => exact same _ rfl rfl (.inl rfl) rfl rfl rfl rfl rfl
  | ldReg x y => exact same _ rfl rfl (.inl rfl) rfl rfl rfl rfl rfl
  | orReg x y => exact same _ rfl rfl (.inl rfl) rfl rfl rfl rfl rfl
  | andReg x y => exact same _ rfl rfl (.inl rfl) rfl rfl rfl rfl rfl
  | xorReg x y => exact same _ rfl rfl (.inl rfl) rfl rfl rfl rfl rfl
  | addReg x y => exact same _ rfl rfl (.inl rfl) rfl rfl rfl rfl rfl
  | subReg x y => exact flag _ _ _ _ rfl
  | shr x y => exact flag _ _ _ _ rfl
  | subnReg x y => exact flag _ _ _ _ rfl
  | shl x y => exact flag _ _ _ _ rfl
  | sneReg x y n => exact skip _ rfl
  | ldI nnn => exact same _ rfl rfl (.inr ⟨_, rfl⟩) rfl rfl rfl rfl rfl
  | jpV0 nnn => exact same _ rfl rfl (.inl rfl) rfl rfl rfl rfl rfl
  | rnd x nn => exact same _ rfl rfl (.inl rfl) rfl rfl rfl rfl rfl
  | drw x y n => exact same _ rfl rfl (.inl rfl) rfl rfl rfl rfl rfl
  | skp x =>
    by_cases h : (s.getV x).toNat ≤ 15
    · exact skip _ (exec_skp_of_le s x h)
    · exact halt _ (exec_skp_of_gt s x (by omega))
  | sknp x =>
    by_cases h : (s.getV x).toNat ≤ 15
    · exact skip _ (exec_sknp_of_le s x h)
    · exact halt _ (exec_sknp_of_gt s x (by omega))
  | ldVxDt x => exact same _ rfl rfl (.inl rfl) rfl rfl rfl rfl rfl
  | ldVxK x => exact ⟨_, rfl, (Effect.refl s).setMode _, .inr (.inl ⟨x, rfl, rfl⟩)⟩
  | ldDtVx x => exact same _ rfl rfl (.inl rfl) rfl rfl rfl rfl rfl
  | ldStVx x => exact same _ rfl rfl (.inl rfl) rfl rfl rfl rfl rfl
  | addI x => exact same _ rfl rfl (.inr ⟨_, rfl⟩) rfl rfl rfl rfl rfl
  | ldF x => exact same _ rfl rfl (.inr ⟨_, rfl⟩) rfl rfl rfl rfl rfl
  | ldB x =>
    rcases storeBytes_effect s (decimalDigits (s.getV x)) (show 3 ≤ 4096 by decide) with ⟨t, ht, he, hm⟩ | ⟨c, hc⟩
    · exact ⟨t, exec_ldB_of_ok s ht, he, .inl hm⟩
    · exact halt c (exec_ldB_of_error s hc)
  | storeRegs x =>
    rcases storeBytes_effect s (regsThrough x s) (by rw [regsThrough_length]; omega) with ⟨t, ht, he, hm⟩ | ⟨c, hc⟩
    · exact ⟨_, exec_storeRegs_of_ok s ht, he.advanceI _ _,
        .inl (by rw [State.advanceI_eq]; exact hm)⟩
    · exact halt c (exec_storeRegs_of_error s hc)
  | loadRegs x =>
    have hl := (s.loadV_spec s.i x.val x.isLt).1
    have he : Effect s (s.loadV s.i x.val) := by
      rw [hl]
      exact .of_same rfl (.inl rfl) rfl rfl rfl rfl
    exact ⟨_, rfl, he.advanceI _ _, .inl (by rw [State.advanceI_eq, hl])⟩

/-- The effect of an instruction, from its next state. -/
theorem exec_effect_of_next {ins : Instr} {s t : State} (h : exec ins s = .next t) :
    Effect s t ∧ ModeEffect ins s t := by
  obtain ⟨u, hu, he⟩ := exec_effect ins s
  rw [hu] at h
  cases h
  exact he

end Sys2Proof.Machine
end

