-- ==== Sys2Proof/Laws/Load.lean ====
section
/-! SUPPORT. What placing bytes above 0x200 does to memory, and that it does nothing else (20_memory.md R66). -/

namespace Sys2Proof.Machine

/-- Everything `placeBytes` does: the bytes at their addresses, every other byte as before, nothing but memory changed. -/
theorem State.placeBytes_spec (s : State) (bs : List Byte) (a : Nat) (h : 0x200 ≤ a) (hn : a + bs.length ≤ 4096) :
    (∀ k, (hk : k < bs.length) → (s.placeBytes a bs).memRead (a + k) = bs[k]) ∧
    (∀ x < 4096, x < a ∨ a + bs.length ≤ x → (s.placeBytes a bs).memRead x = s.memRead x) ∧
    OnlyMemory s (s.placeBytes a bs) := by
  induction bs generalizing s a with
  | nil => exact ⟨fun k h => absurd h (by simp), fun _ _ _ => rfl, .refl s⟩
  | cons b bs ih =>
    have hl : a + (bs.length + 1) ≤ 4096 := by simpa using hn
    obtain ⟨here, there, only⟩ := ih (s.setByte a b) (a + 1) (by omega) (by omega)
    refine ⟨fun k hk => ?_, fun x hx hx' => ?_, (s.setByte_onlyMemory a b (by omega) (.inl h)).trans only⟩
    · cases k with
      | zero =>
        show ((s.setByte a b).placeBytes (a + 1) bs).memRead (a + 0) = b
        rw [there _ (by omega) (by omega), State.memRead_setByte, if_pos (by omega)]
      | succ k =>
        have := here k (by simpa using hk)
        rw [Nat.add_assoc, Nat.add_comm 1 k] at this
        exact this
    · show ((s.setByte a b).placeBytes (a + 1) bs).memRead x = _
      simp only [List.length_cons] at hx'
      rw [there _ hx (by omega), State.memRead_setByte, if_neg (by omega)]

/-- A load that fits is the placing of its bytes (R66). -/
theorem State.boot_of_fits (p : Params) (rom : List Byte) (h : rom.length ≤ 3584) :
    State.boot p rom = (State.resetWith p).placeBytes 0x200 rom := if_pos h

/-- A load that does not fit halts at once (R213). -/
theorem State.boot_of_oversize (p : Params) (rom : List Byte) (h : 3584 < rom.length) :
    State.boot p rom = (State.resetWith p).setMode (.halted (.invalidProgram rom.length)) := if_neg (by omega)

end Sys2Proof.Machine
end

