-- ==== Sys2Proof/Laws/PerInstr.lean ====
section
/-! SUPPORT. Per-instruction family EncodingRow: an instruction's encoding matches its own row of the opcode table
(30_encoding.md R75), under the default P_DECODE_5_9. -/

namespace Sys2Proof.Laws.EncodingRow

/-- The row of the instruction in the opcode table matches its encoding. -/
def Statement (i : Instr) : Prop :=
  ∃ r, (opcodeRows .highNibble)[i.rowIndex]? = some r ∧ rowMatches (encode i) r = true

/-! ### Masking an encoding field by field -/

theorem and_append {a b : Nat} (u u' : BitVec a) (v v' : BitVec b) :
    (u ++ v) &&& (u' ++ v') = (u &&& u') ++ (v &&& v') := by
  apply BitVec.eq_of_getLsbD_eq
  intro k _
  simp only [BitVec.getLsbD_and, BitVec.getLsbD_append]
  split <;> rfl

theorem and_zero {a : Nat} (u : BitVec a) : u &&& 0 = 0 := BitVec.and_zero

/-- A mask of a nibble form, nibble by nibble. -/
theorem and_encodeXyn (op x y n op' x' y' n' : BitVec 4) :
    encodeXyn op x y n &&& encodeXyn op' x' y' n' = encodeXyn (op &&& op') (x &&& x') (y &&& y') (n &&& n') := by
  have : encodeXyn op x y n &&& encodeXyn op' x' y' n' =
      (((op ++ x) ++ y) ++ n) &&& (((op' ++ x') ++ y') ++ n') := rfl
  rw [this, and_append, and_append, and_append]
  rfl

/-- A mask of a byte form, field by field. -/
theorem and_encodeXnn (op op' : BitVec 4) (x x' : RegIdx) (nn nn' : Byte) :
    encodeXnn op x nn &&& encodeXnn op' x' nn' =
      encodeXnn (op &&& op') (nibble x &&& nibble x').toFin (nn &&& nn') := by
  have : encodeXnn op x nn &&& encodeXnn op' x' nn' =
      ((op ++ nibble x) ++ nn) &&& ((op' ++ nibble x') ++ nn') := rfl
  rw [this, and_append, and_append]
  rfl

/-- A mask of an address form, field by field. -/
theorem and_encodeNnn (op op' : BitVec 4) (nnn nnn' : BitVec 12) :
    encodeNnn op nnn &&& encodeNnn op' nnn' = encodeNnn (op &&& op') (nnn &&& nnn') := by
  have : encodeNnn op nnn &&& encodeNnn op' nnn' = (op ++ nnn) &&& (op' ++ nnn') := rfl
  rw [this, and_append]
  rfl

/-- Mask F000 keeps the op field of an address form. -/
theorem nnn_row (op : BitVec 4) (nnn : BitVec 12) : encodeNnn op nnn &&& 0xF000 = encodeNnn op 0 := by
  have : (0xF000 : Word) = encodeNnn 0xF 0 := by decide
  rw [this, and_encodeNnn]
  rw [and_zero]
  exact congrArg (encodeNnn · 0) BitVec.and_allOnes

/-- Mask F000 keeps the op field of a byte form. -/
theorem xnn_row (op : BitVec 4) (x : RegIdx) (nn : Byte) : encodeXnn op x nn &&& 0xF000 = encodeXnn op 0 0 := by
  have : (0xF000 : Word) = encodeXnn 0xF 0 0 := by decide
  rw [this, and_encodeXnn]
  have h : (nibble x &&& nibble 0).toFin = 0 := congrArg BitVec.toFin (and_zero (nibble x))
  rw [h, and_zero]
  exact congrArg (encodeXnn · 0 0) BitVec.and_allOnes

/-- Mask F0FF keeps the op field and the low byte. -/
theorem xnn_row_key (op : BitVec 4) (x : RegIdx) (nn : Byte) : encodeXnn op x nn &&& 0xF0FF = encodeXnn op 0 nn := by
  have : (0xF0FF : Word) = encodeXnn 0xF 0 0xFF := by decide
  rw [this, and_encodeXnn]
  have h : (nibble x &&& nibble 0).toFin = 0 := congrArg BitVec.toFin (and_zero (nibble x))
  have hb : nn &&& 0xFF = nn := BitVec.and_allOnes
  have ho : op &&& 0xF = op := BitVec.and_allOnes
  rw [h, hb, ho]

/-- Mask F000 keeps the op field of a nibble form. -/
theorem xyn_row (op x y n : BitVec 4) : encodeXyn op x y n &&& 0xF000 = encodeXyn op 0 0 0 := by
  have : (0xF000 : Word) = encodeXyn 0xF 0 0 0 := by decide
  rw [this, and_encodeXyn]
  have ho : op &&& 0xF = op := BitVec.and_allOnes
  simp only [and_zero, ho]

/-- Mask F00F keeps the op field and the low nibble. -/
theorem xyn_row_key (op x y n : BitVec 4) : encodeXyn op x y n &&& 0xF00F = encodeXyn op 0 0 n := by
  have : (0xF00F : Word) = encodeXyn 0xF 0 0 0xF := by decide
  rw [this, and_encodeXyn]
  have ho : op &&& 0xF = op := BitVec.and_allOnes
  have hn : n &&& 0xF = n := BitVec.and_allOnes
  simp only [and_zero, ho, hn]

/-- An encoding whose masked value is the match value of row `k` is in that row. -/
theorem of_row {i : Instr} {mask value : Word} (h : (opcodeRows .highNibble)[i.rowIndex]? = some (mask, value))
    (hm : encode i &&& mask = value) : Statement i :=
  ⟨_, h, by simp only [rowMatches, hm, beq_self_eq_true]⟩

/-! ### One lemma per instruction -/

theorem cls : Statement .cls := of_row rfl (by decide)

theorem ret : Statement .ret := of_row rfl (by decide)

theorem jp (nnn : BitVec 12) : Statement (.jp nnn) := of_row rfl (nnn_row _ _)

theorem call (nnn : BitVec 12) : Statement (.call nnn) := of_row rfl (nnn_row _ _)

theorem seByte (x : RegIdx) (nn : Byte) : Statement (.seByte x nn) := of_row rfl (xnn_row _ _ _)

theorem sneByte (x : RegIdx) (nn : Byte) : Statement (.sneByte x nn) := of_row rfl (xnn_row _ _ _)

theorem seReg (x : RegIdx) (y : Fin 16) (n : BitVec 4) : Statement (.seReg x y n) := of_row rfl (xyn_row _ _ _ _)

theorem ldByte (x : RegIdx) (nn : Byte) : Statement (.ldByte x nn) := of_row rfl (xnn_row _ _ _)

theorem addByte (x : RegIdx) (nn : Byte) : Statement (.addByte x nn) := of_row rfl (xnn_row _ _ _)

theorem ldReg (x : RegIdx) (y : Fin 16) : Statement (.ldReg x y) := of_row rfl (xyn_row_key _ _ _ _)

theorem orReg (x : RegIdx) (y : Fin 16) : Statement (.orReg x y) := of_row rfl (xyn_row_key _ _ _ _)

theorem andReg (x : RegIdx) (y : Fin 16) : Statement (.andReg x y) := of_row rfl (xyn_row_key _ _ _ _)

theorem xorReg (x : RegIdx) (y : Fin 16) : Statement (.xorReg x y) := of_row rfl (xyn_row_key _ _ _ _)

theorem addReg (x : RegIdx) (y : Fin 16) : Statement (.addReg x y) := of_row rfl (xyn_row_key _ _ _ _)

theorem subReg (x : RegIdx) (y : Fin 16) : Statement (.subReg x y) := of_row rfl (xyn_row_key _ _ _ _)

theorem shr (x : RegIdx) (n : BitVec 4) : Statement (.shr x n) := of_row rfl (xyn_row_key _ _ _ _)

theorem subnReg (x : RegIdx) (y : Fin 16) : Statement (.subnReg x y) := of_row rfl (xyn_row_key _ _ _ _)

theorem shl (x : RegIdx) (n : BitVec 4) : Statement (.shl x n) := of_row rfl (xyn_row_key _ _ _ _)

theorem sneReg (x : RegIdx) (y : Fin 16) (n : BitVec 4) : Statement (.sneReg x y n) := of_row rfl (xyn_row _ _ _ _)

theorem ldI (nnn : BitVec 12) : Statement (.ldI nnn) := of_row rfl (nnn_row _ _)

theorem jpV0 (nnn : BitVec 12) : Statement (.jpV0 nnn) := of_row rfl (nnn_row _ _)

theorem rnd (x : RegIdx) (nn : Byte) : Statement (.rnd x nn) := of_row rfl (xnn_row _ _ _)

theorem drw (x : RegIdx) (y : Fin 16) (n : Fin 16) : Statement (.drw x y n) := of_row rfl (xyn_row _ _ _ _)

theorem skp (x : RegIdx) : Statement (.skp x) := of_row rfl (xnn_row_key _ _ _)

theorem sknp (x : RegIdx) : Statement (.sknp x) := of_row rfl (xnn_row_key _ _ _)

theorem ldVxDt (x : RegIdx) : Statement (.ldVxDt x) := of_row rfl (xnn_row_key _ _ _)

theorem ldVxK (x : RegIdx) : Statement (.ldVxK x) := of_row rfl (xnn_row_key _ _ _)

theorem ldDtVx (x : RegIdx) : Statement (.ldDtVx x) := of_row rfl (xnn_row_key _ _ _)

theorem ldStVx (x : RegIdx) : Statement (.ldStVx x) := of_row rfl (xnn_row_key _ _ _)

theorem addI (x : RegIdx) : Statement (.addI x) := of_row rfl (xnn_row_key _ _ _)

theorem ldF (x : RegIdx) : Statement (.ldF x) := of_row rfl (xnn_row_key _ _ _)

theorem ldB (x : RegIdx) : Statement (.ldB x) := of_row rfl (xnn_row_key _ _ _)

theorem storeRegs (x : RegIdx) : Statement (.storeRegs x) := of_row rfl (xnn_row_key _ _ _)

theorem loadRegs (x : RegIdx) : Statement (.loadRegs x) := of_row rfl (xnn_row_key _ _ _)

end Sys2Proof.Laws.EncodingRow
end

