-- ==== Sys2Proof/Laws/Step.lean ====
section
/-! SUPPORT. Everything one step can do: whose move it is, and what that move does. -/

namespace Sys2Proof.Machine

variable {s t : State}

/-- The state a cycle executes its instruction in: FB_DIRTY cleared, PC advanced, the move taken off the schedule
(40_cycle.md R92). -/
def State.fetched (s : State) (rest : List Move) : State :=
  { s with fbDirty := false, pc := s.pc + 2, schedule := rest }

theorem State.opcodeAtPc_eq (s : State) : s.opcodeAtPc = fetchedOpcode s := rfl

/-- An odd PC faults exactly under P_ODD_PC = `fault` (40_cycle.md R94). -/
theorem State.misaligned_iff (s : State) : s.misaligned = true ↔ s.params.oddPc = .fault ∧ s.pc.toNat % 2 = 1 := by
  unfold State.misaligned
  rw [Bool.and_eq_true, beq_iff_eq, BitVec.getLsbD, Nat.testBit_zero, decide_eq_true_eq]

theorem coreNext_cases {rest : List Move} (h : s.coreNext rest) (hl : s.live) :
    step s = (s.setSchedule rest).coreStep := by
  have hn : step s = s.nextMove := by
    rcases hl with h | ⟨x, prev, h⟩ <;> simp only [step, State.turn, h]
  rw [hn]
  unfold State.nextMove
  rcases h with ⟨hs, rfl⟩ | hs
  · have : s.setSchedule [] = s := by rw [← hs]; rfl
    rw [hs, this]
  · rw [hs]
    rfl

/-- A core step of a running machine. -/
theorem step_running {rest : List Move} (h : s.coreNext rest) (hr : s.mode = .running) :
    step s = (s.setSchedule rest).cycle := by
  rw [coreNext_cases h (.inl hr)]
  simp only [State.coreStep, State.setSchedule_mode, hr]

/-- The three ways a cycle goes (40_cycle.md R92; 60_exceptions.md R220): a misaligned fetch, an Unknown opcode, or the
instruction decoded. -/
theorem step_cycle {rest : List Move} (h : s.coreNext rest) (hr : s.mode = .running) :
    step s =
      if s.params.oddPc = .fault ∧ s.pc.toNat % 2 = 1 then
        .next { s with fbDirty := false, schedule := rest, mode := .halted (.misalignedFetch s.pc) }
      else match decode s.params.decode59 (fetchedOpcode s) with
        | some ins => exec ins (s.fetched rest)
        | none => .next ((s.fetched rest).appendLog s.pc (fetchedOpcode s)) := by
  rw [step_running h hr]
  unfold State.cycle State.fetch
  have hm : (s.setSchedule rest).misaligned = s.misaligned := rfl
  have ho : (s.setSchedule rest).opcodeAtPc = fetchedOpcode s := rfl
  have hp : (s.setSchedule rest).params = s.params := rfl
  rw [hm, ho, hp]
  by_cases hf : s.params.oddPc = .fault ∧ s.pc.toNat % 2 = 1
  · rw [if_pos hf, if_pos (s.misaligned_iff.mpr hf)]
    rfl
  · rw [if_neg hf, if_neg (fun e => hf (s.misaligned_iff.mp e))]
    cases decode s.params.decode59 (fetchedOpcode s) <;> rfl

/-- A core step of a machine that waits for a key. -/
theorem step_waiting {rest : List Move} {x : RegIdx} {prev : Word} (h : s.coreNext rest)
    (hw : s.mode = .waitingForKey x prev) : step s = .next ((s.setSchedule rest).waitStep x prev) := by
  rw [coreNext_cases h (.inr ⟨x, prev, hw⟩)]
  simp only [State.coreStep, State.setSchedule_mode, hw]

/-- A move of another agent than the core. -/
theorem step_move {m : Move} {ms : List Move} (hl : s.live) (h : s.schedule = m :: ms) :
    step s = (s.setSchedule ms).takeMove m := by
  have hn : step s = s.nextMove := by
    rcases hl with h | ⟨x, prev, h⟩ <;> simp only [step, State.turn, h]
  rw [hn, State.nextMove, h]

/-- Everything one step can do. -/
inductive Stepped (s t : State) : Prop where
  | misaligned (rest : List Move) (next : s.coreNext rest) (running : s.mode = .running)
      (odd : s.params.oddPc = .fault ∧ s.pc.toNat % 2 = 1)
      (eq : t = { s with fbDirty := false, schedule := rest, mode := .halted (.misalignedFetch s.pc) })
  | unknown (rest : List Move) (next : s.coreNext rest) (running : s.mode = .running)
      (aligned : ¬ (s.params.oddPc = .fault ∧ s.pc.toNat % 2 = 1))
      (dec : decode s.params.decode59 (fetchedOpcode s) = none)
      (eq : t = (s.fetched rest).appendLog s.pc (fetchedOpcode s))
  | execute (rest : List Move) (ins : Instr) (next : s.coreNext rest) (running : s.mode = .running)
      (aligned : ¬ (s.params.oddPc = .fault ∧ s.pc.toNat % 2 = 1))
      (dec : decode s.params.decode59 (fetchedOpcode s) = some ins) (eq : exec ins (s.fetched rest) = .next t)
  | wait (rest : List Move) (x : RegIdx) (prev : Word) (next : s.coreNext rest)
      (waiting : s.mode = .waitingForKey x prev) (eq : t = (s.setSchedule rest).waitStep x prev)
  | tick (rest : List Move) (live : s.live) (next : s.schedule = .tick :: rest) (eq : t = (s.setSchedule rest).tick)
  | keys (rest : List Move) (now : Word) (live : s.live) (next : s.schedule = .keys now :: rest)
      (eq : t = (s.setSchedule rest).setKey now)
  | cancel (rest : List Move) (live : s.live) (next : s.schedule = .cancel :: rest)
      (eq : t = (s.setSchedule rest).setMode .terminated)

/-- A state that can step is live. -/
theorem live_of_step (h : step s = .next t) : s.live := by
  unfold step State.turn at h
  cases hm : s.mode with
  | running => exact .inl hm
  | waitingForKey x prev => exact .inr ⟨x, prev, hm⟩
  | halted c => rw [hm] at h; cases h
  | terminated => rw [hm] at h; cases h

theorem stepped_of_core {rest : List Move} (hn : s.coreNext rest) (hl : s.live) (h : step s = .next t) :
    Stepped s t := by
  rcases hl with hr | ⟨x, prev, hw⟩
  · rw [step_cycle hn hr] at h
    by_cases ha : s.params.oddPc = .fault ∧ s.pc.toNat % 2 = 1
    · rw [if_pos ha] at h
      cases h
      exact .misaligned rest hn hr ha rfl
    · rw [if_neg ha] at h
      cases hd : decode s.params.decode59 (fetchedOpcode s) with
      | none => rw [hd] at h; cases h; exact .unknown rest hn hr ha hd rfl
      | some ins => rw [hd] at h; exact .execute rest ins hn hr ha hd h
  · rw [step_waiting hn hw] at h
    cases h
    exact .wait rest x prev hn hw rfl

/-- A step is one of the moves above. -/
theorem stepped_of_step (h : step s = .next t) : Stepped s t := by
  have hl := live_of_step h
  cases hs : s.schedule with
  | nil => exact stepped_of_core (.inl ⟨hs, rfl⟩) hl h
  | cons m ms =>
    cases m with
    | core => exact stepped_of_core (.inr hs) hl h
    | tick => rw [step_move hl hs] at h; cases h; exact .tick ms hl hs rfl
    | keys now => rw [step_move hl hs] at h; cases h; exact .keys ms now hl hs rfl
    | cancel => rw [step_move hl hs] at h; cases h; exact .cancel ms hl hs rfl

end Sys2Proof.Machine
end

