-- ==== Sys2Proof/Tests/Slice0.lean ====
section
/-! SUPPORT. The model's own tests: words written out from the encoding table, one-step vectors of 95_test_vectors.md, and
for every statement with hypotheses a state that meets them. -/

namespace Sys2Proof.Tests

open Sys2Proof Sys2Proof.Machine

/-! ### Helpers -/

/-- The next state of one step, if there is one. -/
def next? (s : State) : Option State :=
  match step s with
  | .next t => some t
  | .fault _ => none
  | .refused _ => none

/-- The state after the opcode `w` ran at PC. -/
def run1 (w : Nat) (s : State) : Option State := next? (s.withFetchWord 16 w)

/-- Reset under other parameters than the defaults. -/
def resetBut (f : Params → Params) : State := State.resetWith (f defaultParams)

/-- Registers set one after another. -/
def withRegs (s : State) (rs : List (RegIdx × Byte)) : State := rs.foldl (fun t r => t.setV r.1 r.2) s

/-- Reset with registers set. -/
def regs (rs : List (RegIdx × Byte)) : State := withRegs State.reset rs

/-- Bytes placed in memory. -/
def withBytes (s : State) (a : Nat) (bs : List Byte) : State := s.placeBytes a bs

/-- Registers of the state after one opcode. -/
def seen (rs : List RegIdx) (t : Option State) : Option (List Byte) := t.map fun u => rs.map u.getV

/-- Bytes of memory of the state after one opcode. -/
def bytesAt (as : List Nat) (t : Option State) : Option (List Byte) := t.map fun u => as.map u.memRead

/-- PC of the state after one opcode. -/
def pcOf (t : Option State) : Option Word := t.map (·.pc)

/-- MODE of the state after one opcode. -/
def modeOf (t : Option State) : Option Mode := t.map (·.mode)

/-- A framebuffer whose row r is `row` and whose other rows are clear. -/
def oneRow (r : Fin 32) (row : PixelRow) : Vector PixelRow 32 := Framebuffer.clear.set r.val row

/-! ### Decoding: words written out from 30_encoding.md R71, R75, field by field -/

theorem test_decode_family0 :
    decode .highNibble 0b0000000011100000 = some .cls ∧ decode .highNibble 0b0000000011101110 = some .ret ∧
    decode .highNibble 0b0000000100100011 = none ∧ decode .highNibble 0b0000000011111111 = none := by decide

theorem test_decode_flow :
    decode .highNibble 0b0001101010111100 = some (.jp 0xABC) ∧
    decode .highNibble 0b0010001000010000 = some (.call 0x210) ∧
    decode .highNibble 0b0011000000000101 = some (.seByte 0 5) ∧
    decode .highNibble 0b0100001100010001 = some (.sneByte 3 0x11) ∧
    decode .highNibble 0b0101000100100001 = some (.seReg 1 2 1) ∧
    decode .highNibble 0b1001000100100000 = some (.sneReg 1 2 0) ∧
    decode .highNibble 0b1011001100000000 = some (.jpV0 0x300) := by decide

theorem test_decode_immediate :
    decode .highNibble 0b0110101011111111 = some (.ldByte 0xA 0xFF) ∧
    decode .highNibble 0b0111000000000011 = some (.addByte 0 3) ∧
    decode .highNibble 0b1010000100100011 = some (.ldI 0x123) ∧
    decode .highNibble 0b1100001100001111 = some (.rnd 3 0x0F) ∧
    decode .highNibble 0b1101000100100101 = some (.drw 1 2 5) := by decide

theorem test_decode_family8 :
    decode .highNibble 0b1000000111110000 = some (.ldReg 1 15) ∧
    decode .highNibble 0b1000000111110001 = some (.orReg 1 15) ∧
    decode .highNibble 0b1000000111110010 = some (.andReg 1 15) ∧
    decode .highNibble 0b1000000111110011 = some (.xorReg 1 15) ∧
    decode .highNibble 0b1000000111110100 = some (.addReg 1 15) ∧
    decode .highNibble 0b1000000111110101 = some (.subReg 1 15) ∧
    decode .highNibble 0b1000000111110110 = some (.shr 1 15) ∧
    decode .highNibble 0b1000000111110111 = some (.subnReg 1 15) ∧
    decode .highNibble 0b1000000111111110 = some (.shl 1 15) ∧
    decode .highNibble 0b1000000100101000 = none := by decide

theorem test_decode_familyE :
    decode .highNibble 0b1110010110011110 = some (.skp 5) ∧
    decode .highNibble 0b1110010110100001 = some (.sknp 5) ∧
    decode .highNibble 0b1110000011111111 = none := by decide

theorem test_decode_familyF :
    decode .highNibble 0b1111001100000111 = some (.ldVxDt 3) ∧
    decode .highNibble 0b1111001100001010 = some (.ldVxK 3) ∧
    decode .highNibble 0b1111001100010101 = some (.ldDtVx 3) ∧
    decode .highNibble 0b1111001100011000 = some (.ldStVx 3) ∧
    decode .highNibble 0b1111001100011110 = some (.addI 3) ∧
    decode .highNibble 0b1111001100101001 = some (.ldF 3) ∧
    decode .highNibble 0b1111001100110011 = some (.ldB 3) ∧
    decode .highNibble 0b1111001101010101 = some (.storeRegs 3) ∧
    decode .highNibble 0b1111001101100101 = some (.loadRegs 3) ∧
    decode .highNibble 0b1111000011111111 = none := by decide

/-- 30_encoding.md R76, vectors V8 and V11. -/
theorem test_decode_strict :
    decode .strict 0x5121 = none ∧ decode .strict 0x9121 = none ∧
    decode .strict 0x5120 = some (.seReg 1 2 0) ∧ decode .strict 0x9120 = some (.sneReg 1 2 0) ∧
    decode .strict 0xA123 = some (.ldI 0x123) := by decide

/-- The host's numbering: 16 bits, and bits above the width are 0. -/
theorem test_decodeTableWord :
    decodeTableWord 16 0x8014 = some (.addReg 0 1) ∧ decodeTableWord 16 0x10000 = none := by decide

/-! ### WellFormed and the canonical memory -/

theorem smoke_seReg_ill_formed : (Instr.seReg 1 2 1).wellFormed .strict = false := by decide

theorem smoke_sneReg_ill_formed : (Instr.sneReg 1 2 15).wellFormed .strict = false := by decide

theorem smoke_well_formed :
    (Instr.seReg 1 2 0).wellFormed .strict = true ∧ (Instr.seReg 1 2 1).wellFormed .highNibble = true ∧
    (Instr.drw 1 2 5).wellFormed .strict = true := by decide

/-- Each clause of the canonical form refuses a list of cells. -/
theorem smoke_memory_ill_formed :
    ¬ Memory.wf defaultFont [(0x201, 1), (0x200, 2)] ∧ ¬ Memory.wf defaultFont [(0x200, 1), (0x200, 2)] ∧
    ¬ Memory.wf defaultFont [(4096, 1)] ∧ ¬ Memory.wf defaultFont [(0x200, 0)] ∧
    ¬ Memory.wf defaultFont [(0, 0xF0)] ∧ Memory.wf defaultFont [(0, 0xF1), (0xFFF, 1)] := by decide

/-- Writing the reset contents removes the entry. -/
theorem test_memory_write_canonical :
    Memory.write defaultFont [(0x200, 1)] 0x200 0 = [] ∧ Memory.write defaultFont [(1, 1)] 0 0xF0 = [(1, 1)] ∧
    Memory.write defaultFont [(0x300, 1)] 0x200 7 = [(0x200, 7), (0x300, 1)] := by decide

/-! ### Fetch and Unknown opcodes -/

/-- V1. -/
theorem test_reset_unknown :
    next? State.reset = some { State.reset with pc := 0x202, log := [⟨0x200, 0⟩] } := by decide

/-- V3: an odd PC fetches under the default P_ODD_PC. -/
theorem test_odd_fetch :
    pcOf (next? { withBytes State.reset 0x203 [0x12, 0x34] with pc := 0x203 }) = some 0x234 := by decide

/-- V4: an odd PC is fatal under `fault`. -/
theorem test_odd_fault :
    modeOf (next? { resetBut (fun p => { p with oddPc := .fault }) with pc := 0x203 }) =
      some (.halted (.misalignedFetch 0x203)) := by decide

/-- V9 and R27: the fetch at 0x1000 reads from 0x000, so the font's F090 runs as an Unknown opcode. -/
theorem test_fetch_wraps :
    (next? { State.reset with pc := 0x1000 }).map (·.log) = some [⟨0x1000, 0xF090⟩] := by decide

/-! ### Display -/

/-- V110. -/
theorem test_cls :
    (run1 0x00E0 { regs [(15, 7)] with fb := Vector.replicate 32 (BitVec.allOnes 64) }).map
        (fun t => (t.fb.toList.all (· == 0), t.fbDirty, t.getV vf, t.pc)) = some (true, true, 7, 0x202) := by decide

/-- V112: a sprite across the right and bottom edges. -/
theorem test_drw_wraps :
    (run1 0xD012 { withBytes (regs [(0, 60), (1, 31), (15, 1)]) 0x300 [0xFF, 0x81] with i := 0x300 }).map
        (fun t => ([59, 60, 63, 0, 3, 4].filter (t.pixel 31), [60, 61, 62, 63, 0, 1, 2, 3].filter (t.pixel 0), t.getV vf)) =
      some ([60, 63, 0, 3], [60, 3], 0) := by decide +kernel

/-- V115, and V116's latched VF as the column: the pixel set before is cleared and reported. -/
theorem test_drw_collides :
    (run1 0xDF11 { withBytes (regs [(15, 5)]) 0x300 [0xC0] with i := 0x300, fb := oneRow 0 0b100000 }).map
        (fun t => ([0, 4, 5, 6, 7].filter (t.pixel 0), t.getV vf, t.fbDirty)) =
      some ([6], 1, true) := by decide

/-! ### Control transfer -/

/-- V24: PC is the stored address, not SP. -/
theorem test_ret :
    (run1 0x00EE { State.reset with sp := 2, stack := (State.reset.stack.set 0 0x202).set 1 0x30A }).map
        (fun t => (t.pc, t.sp)) = some (0x30A, 1) := by decide

/-- V23. -/
theorem test_ret_empty : modeOf (run1 0x00EE State.reset) = some (.halted (.stackUnderflow 0x200)) := by decide

/-- V20. -/
theorem test_jp : pcOf (run1 0x1ABC State.reset) = some 0xABC := by decide

/-- V25: CALL at 0xFFE pushes 0x1000. -/
theorem test_call :
    (run1 0x2000 { State.reset with pc := 0xFFE }).map (fun t => (t.stack[0], t.sp, t.pc)) = some (0x1000, 1, 0) := by
  decide

/-- V22. -/
theorem test_call_full :
    modeOf (run1 0x2400 { State.reset with sp := 16 }) = some (.halted (.stackOverflow 0x200)) := by decide

/-- W1. -/
theorem test_se_byte :
    pcOf (run1 0x3005 { regs [(0, 5)] with pc := 0x208 }) = some 0x20C ∧
    pcOf (run1 0x3005 { regs [(0, 4)] with pc := 0x208 }) = some 0x20A := by decide

/-- V26, V27. -/
theorem test_sne_byte :
    pcOf (run1 0x4311 { regs [(3, 0x10)] with pc := 0x300 }) = some 0x304 ∧
    pcOf (run1 0x4311 { regs [(3, 0x11)] with pc := 0x300 }) = some 0x302 := by decide

/-- V8: taken under the default, Unknown under `strict`. -/
theorem test_se_reg :
    pcOf (run1 0x5121 (regs [(1, 3), (2, 3)])) = some 0x204 ∧
    pcOf (run1 0x5121 (withRegs (resetBut fun p => { p with decode59 := .strict }) [(1, 3), (2, 3)])) = some 0x202 := by
  decide

/-- V29, V30. -/
theorem test_sne_reg :
    pcOf (run1 0x9440 (regs [(4, 7)])) = some 0x202 ∧ pcOf (run1 0x9120 (regs [(1, 7), (2, 8)])) = some 0x204 := by
  decide

/-- V33, V34: the sum wraps at 12 bits, and the register is V0. -/
theorem test_jp_v0 :
    pcOf (run1 0xBFFF (regs [(0, 2), (15, 9)])) = some 0x001 ∧
    pcOf (run1 0xB200 (regs [(0, 1), (2, 0x55)])) = some 0x201 := by decide

/-! ### Register and ALU -/

/-- V40. -/
theorem test_ld_byte : seen [0xA] (run1 0x6AFF State.reset) = some [0xFF] := by decide

/-- V41, V42. -/
theorem test_add_byte :
    seen [0, 15] (run1 0x7003 (regs [(0, 0xFE), (15, 0x33)])) = some [0x01, 0x33] ∧
    seen [15] (run1 0x7F01 (regs [(15, 0x10)])) = some [0x11] := by decide

/-- V43. -/
theorem test_ld_reg : seen [0, 1] (run1 0x8010 (regs [(1, 0x42)])) = some [0x42, 0x42] := by decide

/-- V44. -/
theorem test_or : seen [0, 15] (run1 0x8011 (regs [(0, 0x0F), (1, 0xF0), (15, 0x55)])) = some [0xFF, 0x55] := by decide

/-- V45. -/
theorem test_and : seen [0] (run1 0x8012 (regs [(0, 0x3C), (1, 0x0F)])) = some [0x0C] := by decide

/-- V46. -/
theorem test_xor : seen [0] (run1 0x8013 (regs [(0, 0xFF), (1, 0x0F)])) = some [0xF0] := by decide

/-- W2; V51: with VF as destination the carry stays. -/
theorem test_add_reg :
    seen [0, 15] (run1 0x8014 (regs [(0, 0xFF), (1, 1)])) = some [0x00, 1] ∧
    seen [15] (run1 0x8F14 (regs [(15, 0xFF), (1, 1)])) = some [1] := by decide

/-- W4, V52: the comparison is strict. -/
theorem test_sub :
    seen [0, 15] (run1 0x8015 (regs [(0, 5), (1, 0x0A)])) = some [0xFB, 0] ∧
    seen [0, 15] (run1 0x8015 (regs [(0, 5), (1, 5)])) = some [0, 0] := by decide

/-- V57: the y field, even F, is ignored. -/
theorem test_shr : seen [0, 15] (run1 0x80F6 (regs [(0, 0xFF), (15, 0x22)])) = some [0x7F, 1] := by decide

/-- V58, V59. -/
theorem test_subn :
    seen [0, 15] (run1 0x8017 (regs [(0, 3), (1, 0x0A)])) = some [7, 1] ∧
    seen [0, 15] (run1 0x8017 (regs [(0, 2), (1, 1)])) = some [0xFF, 0] := by decide

/-- V61, V62. -/
theorem test_shl :
    seen [2, 15] (run1 0x820E (regs [(2, 0x81)])) = some [2, 1] ∧
    seen [2, 15] (run1 0x820E (regs [(2, 0x7F)])) = some [0xFE, 0] := by decide

/-- V70, V73, V74, V77: VF as the destination, under the three values of P_VF_ORDER. -/
theorem test_vf_destination :
    ([VfOrder.latchedTableOrder, .latchedFlagLast, .sequentialReread].map fun o =>
        let s := resetBut fun p => { p with vfOrder := o }
        (seen [15] (run1 0x8F15 (withRegs s [(15, 0x10), (1, 3)])), seen [15] (run1 0x8F06 (withRegs s [(15, 5)])),
          seen [15] (run1 0x8F17 (withRegs s [(15, 3), (1, 0x10)])), seen [15] (run1 0x8F0E (withRegs s [(15, 1)])))) =
      [(some [0x0D], some [2], some [0x0D], some [2]), (some [1], some [1], some [1], some [0]),
        (some [0xFE], some [0], some [0x0F], some [0])] := by decide

/-- V71, V75: VF as the second operand. -/
theorem test_vf_source :
    ([VfOrder.latchedTableOrder, .latchedFlagLast, .sequentialReread].map fun o =>
        let s := resetBut fun p => { p with vfOrder := o }
        (seen [0, 15] (run1 0x80F5 (withRegs s [(0, 0x10), (15, 3)])),
          seen [0, 15] (run1 0x80F7 (withRegs s [(0, 3), (15, 0x10)])))) =
      [(some [0x0D, 1], some [0x0D, 1]), (some [0x0D, 1], some [0x0D, 1]), (some [0x0F, 1], some [0xFE, 1])] := by decide

/-- V65: with the mask 0 the result is 0 whatever byte is drawn. -/
theorem test_rnd_zero_mask (s : State) : ∃ t, exec (.rnd 3 0x00) s = .next t ∧ t.getV 3 = 0 :=
  ⟨_, rfl, by simp⟩

/-- V66: with the mask 0xFF the result is the byte drawn. -/
theorem test_rnd_full_mask (s : State) : ∃ t, exec (.rnd 3 0xFF) s = .next t ∧ t.getV 3 = Config.randomByte s.draws :=
  ⟨_, rfl, by
    have h : ∀ b : Byte, b &&& 0xFF = b := by decide
    simp
    exact h _⟩

/-! ### Index register and memory -/

/-- V81. -/
theorem test_ld_i : (run1 0xAFFF State.reset).map (·.i) = some 0xFFF := by decide

/-- V83: the sum wraps at 12 bits and VF is not written. -/
theorem test_add_i :
    (run1 0xF21E { regs [(2, 1)] with i := 0xFFF }).map (fun t => (t.i, t.getV vf)) = some (0x000, 0) := by decide

/-- V84, V86: Vx is not masked. -/
theorem test_ld_f :
    (run1 0xF029 (regs [(0, 0x0A)])).map (·.i) = some 0x032 ∧ (run1 0xF029 (regs [(0, 0xFF)])).map (·.i) = some 0x4FB := by
  decide

/-- W7. -/
theorem test_ld_b :
    bytesAt [0x300, 0x301, 0x302] (run1 0xF033 { regs [(0, 156)] with i := 0x300 }) = some [1, 5, 6] := by decide

/-- V90, V91, V92: the third address is 0x000. -/
theorem test_ld_b_low :
    ([LowWrite.fault, .write, .ignore].map fun w =>
        let t := run1 0xF033 { withRegs (resetBut fun p => { p with lowWrite := w }) [(0, 1)] with i := 0xFFE }
        (modeOf t, bytesAt [0xFFE, 0xFFF, 0x000] t)) =
      [(some (.halted (.protectedWrite 0x200 0)), some [0, 0, 0xF0]), (some .running, some [0, 0, 1]),
        (some .running, some [0, 0, 0xF0])] := by decide

/-- V93, V94. -/
theorem test_store_regs :
    ([LdstI.unchanged, .increment].map fun l =>
        let t := run1 0xF155 { withRegs (resetBut fun p => { p with ldstI := l }) [(0, 0x11), (1, 0x22), (2, 0x33)] with
          i := 0x400 }
        (bytesAt [0x400, 0x401, 0x402] t, t.map (·.i))) =
      [(some [0x11, 0x22, 0], some 0x400), (some [0x11, 0x22, 0], some 0x402)] := by decide

/-- V96. -/
theorem test_store_regs_low :
    modeOf (run1 0xF055 { State.reset with i := 0x1FF }) = some (.halted (.protectedWrite 0x200 0x1FF)) := by decide

/-- V98, V99: reads of the font, and the wrap past 0xFFF. -/
theorem test_load_regs :
    seen [0, 1, 2, 3, 4, 5] (run1 0xF465 (regs [(5, 9)])) = some [0xF0, 0x90, 0x90, 0x90, 0xF0, 9] ∧
    seen [0, 1] (run1 0xF165 { withBytes State.reset 0xFFF [0xAB] with i := 0xFFF }) = some [0xAB, 0xF0] := by decide

/-- V100: VF is loaded as data. -/
theorem test_load_regs_vf : seen [15] (run1 0xFF65 { withBytes State.reset 0x30F [0x77] with i := 0x300 }) = some [0x77] := by
  decide

/-! ### Keypad and timers -/

/-- V120, V121, V123. -/
theorem test_skp :
    pcOf (run1 0xE59E { regs [(5, 0x0A)] with pc := 0x220, key := 0x0400 }) = some 0x224 ∧
    pcOf (run1 0xE59E { regs [(5, 0x0A)] with pc := 0x220, key := 0xFBFF }) = some 0x222 ∧
    modeOf (run1 0xE59E (regs [(5, 0x10)])) = some (.halted (.keyIndexOutOfRange 0x200 0x10)) := by decide

/-- V122. -/
theorem test_sknp : pcOf (run1 0xE5A1 { regs [(5, 0x0A)] with pc := 0x220, key := 0xFBFF }) = some 0x224 := by decide

/-- V124. -/
theorem test_ld_vx_dt : seen [3] (run1 0xF307 { State.reset with dt := 0x3C }) = some [0x3C] := by decide

/-- V128. -/
theorem test_ld_dt_vx : (run1 0xF315 (regs [(3, 3)])).map (fun t => (t.dt, t.st)) = some (3, 0) := by decide

/-- V127. -/
theorem test_ld_st_vx :
    (run1 0xF118 (regs [(1, 2)])).map (fun t => (t.st, t.soundActive, t.dt)) = some (2, true, 0) := by decide

/-- V126, V127: a tick, with DT at 0 and ST at 1. -/
theorem test_tick :
    (next? { State.reset with st := 1, schedule := [.tick] }).map (fun t => (t.dt, t.st, t.soundActive, t.pc)) =
      some (0, 0, false, 0x200) := by decide

/-- V129, the Fx0A cycle. -/
theorem test_ld_vx_k :
    (run1 0xF30A { State.reset with pc := 0x230, key := 0x0008 }).map (fun t => (t.mode, t.pc)) =
      some (.waitingForKey 3 0x0008, 0x232) := by decide

/-- V129, V130, the wait steps: a newly pressed key ends the wait, a key held since before does not. -/
theorem test_key_wait :
    (next? { State.reset with mode := .waitingForKey 3 0, key := 0x0020 }).map (fun t => (t.getV 3, t.mode, t.pc)) =
      some (5, .running, 0x200) ∧
    modeOf (next? { State.reset with mode := .waitingForKey 0 8, key := 8 }) = some (.waitingForKey 0 8) ∧
    modeOf (next? { State.reset with mode := .waitingForKey 0 8, key := 0 }) = some (.waitingForKey 0 0) := by decide

/-- V133. -/
theorem test_cancel :
    modeOf (next? { State.reset with mode := .waitingForKey 3 0, schedule := [.cancel] }) = some .terminated := by decide

/-! ### Reset and load -/

/-- V143, V144. -/
theorem test_reset_memory :
    [0x4B, 0x4C, 0x4D, 0x4E, 0x4F, 0x50, 0x1FF].map State.reset.memRead = [0xF0, 0x80, 0xF0, 0x80, 0x80, 0, 0] := by decide

/-- W10's image: the first and last bytes, and the zero after it. -/
theorem test_load :
    [0x1FF, 0x200, 0x201, 0x207, 0x208].map
      (State.boot defaultParams [0x60, 0x05, 0x61, 0x05, 0x80, 0x14, 0x00, 0xE0]).memRead = [0, 0x60, 0x05, 0xE0, 0] := by
  decide

/-! ### Witnesses: for every statement with hypotheses, states and operands that meet all of them together -/

/-- Reset under P_ODD_PC = `fault`. -/
def oddFaults : State := resetBut fun p => { p with oddPc := .fault }

theorem witness_DecodeOfEncode :
    (Instr.sneReg 15 15 0).wellFormed .strict = true ∧ (Instr.sneReg 15 0 15).wellFormed .highNibble = true := by decide

theorem witness_EncodeOfDecode_OneRowMatchesEachOpcode :
    decode .strict 0xFF65 = some (.loadRegs 15) ∧ decode .highNibble 0x5FF5 = some (.seReg 15 15 5) ∧
    decode .strict 0x5FF5 = none := by decide

/-- With no move listed, and with the core's move first on the list; at an even PC under `fault`. -/
theorem witness_StepRunsDecodedInstruction :
    (readyToFetch (State.reset.withFetchWord 16 0x6A12) [] ∧
      decode .highNibble (fetchedOpcode (State.reset.withFetchWord 16 0x6A12)) = some (.ldByte 0xA 0x12)) ∧
    (readyToFetch { oddFaults.withFetchWord 16 0x6A12 with schedule := [.core, .tick] } [.tick] ∧
      decode .highNibble (fetchedOpcode (oddFaults.withFetchWord 16 0x6A12)) = some (.ldByte 0xA 0x12)) :=
  ⟨⟨⟨rfl, .inl ⟨rfl, rfl⟩, by decide⟩, by decide⟩, ⟨⟨rfl, .inr rfl, by decide⟩, by decide⟩⟩

theorem witness_UnknownOpcodeIsLoggedNoOp :
    readyToFetch State.reset [] ∧ decode State.reset.params.decode59 (fetchedOpcode State.reset) = none :=
  ⟨⟨rfl, .inl ⟨rfl, rfl⟩, by decide⟩, by decide⟩

theorem witness_OddPcFaultsUnderPolicy :
    let s := { oddFaults with pc := 0xFFFF }
    s.mode = .running ∧ s.coreNext [] ∧ s.params.oddPc = .fault ∧ s.pc.toNat % 2 = 1 :=
  ⟨rfl, .inl ⟨rfl, rfl⟩, rfl, by decide⟩

/-- Running with a timer at 0 and one at 255, and waiting for a key. -/
theorem witness_TickDecrementsTimers :
    (({ State.reset with dt := 0, st := 255, schedule := [.tick] } : State).live) ∧
    (({ State.reset with dt := 1, mode := .waitingForKey 3 0, schedule := [.tick] } : State).live) :=
  ⟨.inl rfl, .inr ⟨3, 0, rfl⟩⟩

theorem witness_KeypadAndCancelMoves :
    (({ State.reset with mode := .waitingForKey 3 0, schedule := [.keys 0xFFFF] } : State).live) ∧
    (({ State.reset with schedule := [.cancel, .core] } : State).live) :=
  ⟨.inr ⟨3, 0, rfl⟩, .inl rfl⟩

theorem witness_FinalModesHaveNoStep :
    ¬ ({ State.reset with mode := .terminated } : State).live ∧
    ¬ ({ State.reset with mode := .halted (.stackUnderflow 0x200) } : State).live :=
  ⟨fun h => (by rcases h with h | ⟨_, _, h⟩ <;> cases h), fun h => (by rcases h with h | ⟨_, _, h⟩ <;> cases h)⟩

/-- No key pressed, and every key held since before. -/
theorem witness_KeyWaitGoesOnWithoutNewKey :
    (∀ k : RegIdx, ¬ ((0 : Word).getLsbD k.val = false ∧ (0 : Word).getLsbD k.val = true)) ∧
    (∀ k : RegIdx, ¬ ((0xFFFF : Word).getLsbD k.val = false ∧ (0xFFFF : Word).getLsbD k.val = true)) ∧
    ({ State.reset with mode := .waitingForKey 0 0xFFFF, key := 0xFFFF } : State).coreNext [] :=
  ⟨by decide, by decide, .inl ⟨rfl, rfl⟩⟩

/-- V129's single key, V131's two keys at once, and key 15 alone. -/
theorem witness_KeyWaitEndsWithNewKey :
    pressedSince 0 0x0020 5 ∧ (pressedSince 0 0x0204 2 ∧ pressedSince 0 0x0204 9) ∧ pressedSince 0x7FFF 0xFFFF 15 ∧
    ({ State.reset with mode := .waitingForKey 15 0x7FFF, key := 0xFFFF } : State).coreNext [] :=
  ⟨⟨by decide, by decide⟩, ⟨⟨by decide, by decide⟩, ⟨by decide, by decide⟩⟩, ⟨by decide, by decide⟩, .inl ⟨rfl, rfl⟩⟩

/-- V10: JP 0xFFE at 0xFFE. -/
theorem witness_SelfLoopChangesNothingButDirty :
    let s := ({ State.reset with pc := 0xFFE } : State).withFetchWord 16 0x1FFE
    readyToFetch s [] ∧ decode s.params.decode59 (fetchedOpcode s) = some (.jp 0xFFE) ∧ (0xFFE : BitVec 12).toNat = s.pc.toNat :=
  ⟨⟨rfl, .inl ⟨rfl, rfl⟩, by decide⟩, by decide, by decide⟩

/-- V9: a skip at 0xFFE; and a key skip that faults at none. -/
theorem witness_SkipCycleAdvancesTwoOrFour :
    let s := ({ State.reset with pc := 0xFFFE } : State).withFetchWord 16 0x3000
    readyToFetch s [] ∧ decode s.params.decode59 (fetchedOpcode s) = some (.seByte 0 0) ∧ isSkip (.seByte 0 0) :=
  ⟨⟨rfl, .inl ⟨rfl, rfl⟩, by decide⟩, by decide, .inl ⟨0, 0, .inl rfl⟩⟩

theorem reset_inv : State.reset.Inv := ⟨by decide, by decide⟩

theorem reset_lowIntact : State.reset.LowIntact := fun a ha => by
  show Memory.resetByte defaultFont (a % 4096) = _
  rw [Nat.mod_eq_of_lt (by omega)]
  rfl

/-- A step from a state that meets the invariants, with memory listed; the same step witnesses the statements about every
step. -/
theorem witness_StepKeepsInv_StepKeepsFontRegion_ModeChangesOnlyAsR38Says :
    (∃ t, step State.reset = .next t) ∧ State.reset.Inv ∧ State.reset.LowIntact ∧ State.reset.params.lowWrite ≠ .write :=
  ⟨⟨_, rfl⟩, reset_inv, reset_lowIntact, by decide⟩

theorem witness_CanonicalMemoriesWithSameReadsAreEqual :
    Memory.wf defaultFont [(0, 0), (0xFFF, 1)] ∧
    ∀ a < 4096, Memory.read defaultFont [(0, 0), (0xFFF, 1)] a = Memory.read defaultFont [(0, 0), (0xFFF, 1)] a :=
  ⟨by decide, fun _ _ => rfl⟩

theorem witness_ResetRegisters :
    defaultParams.resetRegs = .zero ∧ ({ defaultParams with resetRegs := .arbitrary } : Params).resetRegs ≠ .zero := by decide

/-- An image of every length the load accepts, the largest too, and the smallest it refuses. -/
theorem witness_ProgramLoadCopiesImage_OversizeImageIsRefused :
    ([] : List Byte).length ≤ 3584 ∧ (List.replicate 3584 (7 : Byte)).length ≤ 3584 ∧
    3584 < (List.replicate 3585 (7 : Byte)).length := by
  simp only [List.length_replicate, List.length_nil]
  decide

theorem witness_FirstInstructionIsFirstTwoBytes :
    (List.replicate 3582 (0 : Byte)).length ≤ 3582 ∧ decode .highNibble ((0x12 : Byte) ++ (0x34 : Byte)) = some (.jp 0x234) := by
  simp only [List.length_replicate]
  decide

/-- A store that writes memory and I. -/
theorem witness_InstructionsStayInFootprint :
    ∃ t, exec (.storeRegs 1) { resetBut (fun p => { p with ldstI := .increment }) with i := 0x200 } = .next t := ⟨_, rfl⟩

theorem witness_VfWrittenOnlyByFlagWriters :
    (∃ t, exec (.loadRegs 14) State.reset = .next t) ∧ ¬ flagsVf (.loadRegs 14) ∧ ¬ namesVf (.loadRegs 14) ∧
    flagsVf (.addReg 0 1) ∧ flagsVf (.shl 0 0) ∧ flagsVf (.drw 0 0 0) :=
  ⟨⟨_, rfl⟩, (by rintro (⟨_, _, h | h | h⟩ | ⟨_, _, h | h⟩ | ⟨_, _, _, h⟩) <;> cases h),
    (by rintro (⟨_, h | h | h⟩ | ⟨_, h | h | h | h⟩ | h | h) <;> cases h),
    .inl ⟨0, 1, .inl rfl⟩, .inr (.inl ⟨0, 0, .inr rfl⟩), .inr (.inr ⟨0, 0, 0, rfl⟩)⟩

/-- One instruction for each cause of the table. -/
theorem witness_FatalCausesAreExactlyTheTable :
    exec (.call 0) { State.reset with sp := 16 } =
      .next { State.reset with sp := 16, mode := .halted (.stackOverflow (State.reset.pc - 2)) } ∧
    exec .ret State.reset = .next { State.reset with mode := .halted (.stackUnderflow (State.reset.pc - 2)) } ∧
    exec (.sknp 5) (regs [(5, 16)]) =
      .next { regs [(5, 16)] with mode := .halted (.keyIndexOutOfRange (State.reset.pc - 2) 16) } ∧
    exec (.ldB 0) { State.reset with i := 0xFFE } =
      .next { State.reset with i := 0xFFE, mode := .halted (.protectedWrite (State.reset.pc - 2) 0) } ∧
    exec (.storeRegs 0) { State.reset with i := 0x1FF } =
      .next { State.reset with i := 0x1FF, mode := .halted (.protectedWrite (State.reset.pc - 2) 0x1FF) } :=
  ⟨rfl, rfl, rfl, rfl, rfl⟩

/-- A cycle that sets FB_DIRTY and one that does not. -/
theorem witness_DirtyExactlyAfterClsOrDrw :
    (next? (State.reset.withFetchWord 16 0x00E0)).map (·.fbDirty) = some true ∧
    (next? { State.reset with fbDirty := true }).map (·.fbDirty) = some false ∧
    State.reset.mode = .running ∧ State.reset.coreNext [] :=
  ⟨by decide, by decide, rfl, .inl ⟨rfl, rfl⟩⟩

/-- A step that changes KEY and one that appends to LOG. -/
theorem witness_StepKeepsParamsAndOnlyExtendsLog :
    (next? { State.reset with schedule := [.keys 7] }).map (fun t => (t.key, t.log)) = some (7, []) ∧
    (next? State.reset).map (fun t => (t.key, t.log.length)) = some (0, 1) := by decide

theorem witness_DrwTwiceRestoresDisplay_VfOperandTable : (0 : RegIdx) ≠ vf ∧ (14 : RegIdx) ≠ vf := by decide

/-- Both ends of SP's range for each clause of RET and of CALL. -/
theorem witness_RetPopsReturnAddress_CallPushesAndJumps :
    0 < ({ State.reset with sp := 1 } : State).sp.val ∧ 0 < ({ State.reset with sp := 16 } : State).sp.val ∧
    State.reset.sp.val = 0 ∧ State.reset.sp.val < 16 ∧ ({ State.reset with sp := 15 } : State).sp.val < 16 ∧
    ({ State.reset with sp := 16 } : State).sp.val = 16 := by decide

/-- Each cause, and a mode without one. -/
theorem witness_FaultOutputsReportCause :
    ([.halted (.stackOverflow 0), .halted (.stackUnderflow 0), .halted (.invalidProgram 3585),
        .halted (.keyIndexOutOfRange 0 16), .halted (.protectedWrite 0 0), .halted (.misalignedFetch 1), .running,
        .waitingForKey 0 0, .terminated].map fun m => (State.reset.setMode m).faultCause) =
      [1, 2, 3, 5, 6, 7, 0, 0, 0] := by decide

/-- W8, at the last depth a CALL may be made from, with another register changed between CALL and RET. -/
theorem witness_RetAfterCallReturns :
    let s : State := { State.reset with sp := 15 }
    s.sp.val < 16 ∧ ∃ t, exec (.call 0x210) s = .next t ∧ (t.setV 0 9).stack = t.stack ∧ (t.setV 0 9).sp = t.sp :=
  ⟨by decide, ⟨_, rfl, rfl, rfl⟩⟩

/-- Equal and unequal operands. -/
theorem witness_ByteSkipsCompare_RegisterSkipsCompare :
    (regs [(0, 5)]).getV 0 = 5 ∧ (regs [(0, 5)]).getV 0 ≠ 4 ∧ (regs [(1, 7), (2, 7)]).getV 1 = (regs [(1, 7), (2, 7)]).getV 2 ∧
    (regs [(1, 7)]).getV 1 ≠ (regs [(1, 7)]).getV 2 := by decide

/-- Each side of the hypotheses on P_VF_ORDER and on the operands. -/
theorem witness_AddSets_SubSets_SubnSets_ShiftsSet_VfOperandTable :
    State.reset.params.vfOrder = .latchedTableOrder ∧
    (resetBut fun p => { p with vfOrder := .latchedFlagLast }).params.vfOrder = .latchedFlagLast ∧
    (resetBut fun p => { p with vfOrder := .sequentialReread }).params.vfOrder = .sequentialReread ∧
    ((14 : RegIdx) ≠ vf ∧ (0 : RegIdx) ≠ vf) := by decide

/-- The lowest store the default policy allows, the highest, and one below 0x200 under another policy. -/
theorem witness_BcdStoresDecimalDigits_StoreRegistersStoresV0ToVx :
    storeAllowed { State.reset with i := 0x200 } 16 ∧ storeAllowed { State.reset with i := 0xFFD } 3 ∧
    storeAllowed (resetBut fun p => { p with lowWrite := .ignore }) 3 ∧
    State.reset.params.ldstI = .unchanged ∧ (resetBut fun p => { p with ldstI := .increment }).params.ldstI = .increment :=
  ⟨fun _ => by decide, fun _ => by decide, fun h => absurd h (by decide), rfl, rfl⟩

/-- The first offending address first in the range, last in it after a wrap, and second. -/
theorem witness_BcdStoresDecimalDigits_StoreRegistersStoresV0ToVx_fatal :
    State.reset.params.lowWrite = .fault ∧ firstProtected { State.reset with i := 0x1FF } 3 0x1FF ∧
    firstProtected { State.reset with i := 0xFFE } 3 0 ∧ firstProtected { State.reset with i := 0xFFF } ((1 : RegIdx).val + 1) 0 :=
  ⟨rfl, ⟨0, by decide⟩, ⟨2, by decide⟩, ⟨1, by decide⟩⟩

/-- V101. -/
theorem witness_NextFetchSeesStoredBytes :
    let s : State := { State.reset with pc := 0x204, i := 0x204 }
    1 ≤ (1 : RegIdx).val ∧ byteAddr s.pc 0 = byteAddr s.i 0 ∧ ∀ k < (1 : RegIdx).val + 1, 0x200 ≤ byteAddr s.i k := by decide

theorem witness_LoadRegistersLoadsV0ToVx :
    (15 : RegIdx) ≤ 15 ∧ State.reset.params.ldstI = .unchanged ∧
    (resetBut fun p => { p with ldstI := .increment }).params.ldstI = .increment := by decide

/-- The last key there is, pressed and not pressed, and the first index that names none. -/
theorem witness_KeySkipsReadKeypad_KeyIndexAboveFifteenIsFatal :
    ((regs [(5, 15)]).getV 5).toNat ≤ 15 ∧ ({ regs [(5, 15)] with key := 0x8000 } : State).key.getLsbD 15 = true ∧
    ({ regs [(5, 15)] with key := 0x7FFF } : State).key.getLsbD 15 = false ∧ 15 < ((regs [(5, 16)]).getV 5).toNat := by
  decide

end Sys2Proof.Tests
end

section
/-! PROOFS. The statements of 10_state.md, in three layers: what executing an instruction leaves unchanged (one rule per
state operation, then one lemma for every instruction), what a step of any agent does to the fields the invariants speak
of, and the obligations, each assembled from these. -/

namespace Sys2Proof.Machine

/-! ### Frame rules: one per state operation, for every footprint that admits the operation -/

section Frame

variable {f : Footprint} {s t u : State}

theorem unchangedOutside.trans (h : unchangedOutside f s t) (g : unchangedOutside f t u) : unchangedOutside f s u := by
  obtain ⟨hv, hi, hpc, hsp, hstack, hdt, hst, hmem, hfb, hmode, hdirty, hdraws, hkey, hlog, hparams, hsched⟩ := h
  obtain ⟨gv, gi, gpc, gsp, gstack, gdt, gst, gmem, gfb, gmode, gdirty, gdraws, gkey, glog, gparams, gsched⟩ := g
  exact ⟨fun j n => (gv j n).trans (hv j n), fun n => (gi n).trans (hi n), fun n => (gpc n).trans (hpc n),
    fun n => (gsp n).trans (hsp n), fun n => (gstack n).trans (hstack n), fun n => (gdt n).trans (hdt n),
    fun n => (gst n).trans (hst n), fun a n => (gmem a n).trans (hmem a n),
    fun n r c => (gfb n r c).trans (hfb n r c), fun n => (gmode n).trans (hmode n),
    fun n => (gdirty n).trans (hdirty n), fun n => (gdraws n).trans (hdraws n), gkey.trans hkey, glog.trans hlog,
    gparams.trans hparams, gsched.trans hsched⟩

theorem unchangedOutside_refl (f : Footprint) (s : State) : unchangedOutside f s s := by
  simp [unchangedOutside]

theorem unchangedOutside_setV {x : RegIdx} (b : Byte) (hx : x ∈ f.v) : unchangedOutside f s (s.setV x b) := by
  have hv : ∀ j, j ∉ f.v → (s.setV x b).getV j = s.getV j :=
    fun j hj => s.getV_setV_other x j b fun e => hj (e ▸ hx)
  simpa [unchangedOutside] using hv

theorem unchangedOutside_setI (w : Word) (h : f.i = true) : unchangedOutside f s (s.setI w) := by
  simp [unchangedOutside, h]

theorem unchangedOutside_setPc (w : Word) (h : f.pc = true) : unchangedOutside f s (s.setPc w) := by
  simp [unchangedOutside, h]

theorem unchangedOutside_setDt (b : Byte) (h : f.dt = true) : unchangedOutside f s (s.setDt b) := by
  simp [unchangedOutside, h]

theorem unchangedOutside_setSt (b : Byte) (h : f.st = true) : unchangedOutside f s (s.setSt b) := by
  simp [unchangedOutside, h]

theorem unchangedOutside_setMode (m : Mode) (h : f.mode = true) : unchangedOutside f s (s.setMode m) := by
  simp [unchangedOutside, h]

theorem unchangedOutside_setDirty (b : Bool) (h : f.fbDirty = true) : unchangedOutside f s (s.setDirty b) := by
  simp [unchangedOutside, h]

theorem unchangedOutside_setFb (fb : Framebuffer) (h : f.fb = true) : unchangedOutside f s (s.setFb fb) := by
  simp [unchangedOutside, h]

theorem unchangedOutside_countDraw (h : f.draws = true) : unchangedOutside f s s.countDraw := by
  simp [unchangedOutside, h]

theorem unchangedOutside_skipIf (c : Bool) (h : f.pc = true) : unchangedOutside f s (s.skipIf c) := by
  cases c
  · exact unchangedOutside_refl f s
  · exact unchangedOutside_setPc _ h

/-- A change of V alone, to registers inside the footprint. -/
theorem unchangedOutside_of_v (ht : t = { s with v := t.v }) (hv : ∀ j, j ∉ f.v → t.getV j = s.getV j) :
    unchangedOutside f s t := by
  obtain ⟨v, rfl⟩ : ∃ v, t = { s with v := v } := ⟨_, ht⟩
  simpa [unchangedOutside, State.memRead, State.pixel] using hv

theorem unchangedOutside_flagAndResult (flag result : Byte → Byte → Byte) {x : RegIdx} (y : RegIdx) (hx : x ∈ f.v)
    (hvf : vf ∈ f.v) : unchangedOutside f s (s.flagAndResult flag result x y) := by
  refine unchangedOutside_of_v (s.flagAndResult_eq flag result x y) fun j hj => ?_
  have hjx : j ≠ x := fun e => hj (e ▸ hx)
  have hjvf : j ≠ vf := fun e => hj (e ▸ hvf)
  rw [State.getV_flagAndResult]
  cases s.params.vfOrder <;> simp only [if_neg hjx, if_neg hjvf]

theorem unchangedOutside_loadV (base : Word) (x : RegIdx) (h : ∀ j ≤ x, j ∈ f.v) :
    unchangedOutside f s (s.loadV base x.val) := by
  obtain ⟨hframe, hread⟩ := s.loadV_spec base x.val x.isLt
  exact unchangedOutside_of_v hframe fun j hj => (hread j).trans (if_neg fun hle => hj (h j hle))

/-- A change of memory alone, to bytes inside the footprint. -/
theorem unchangedOutside_of_onlyMemory (h : OnlyMemory s t) (hr : ∀ a, a % 4096 ∉ f.mem → t.memRead a = s.memRead a) :
    unchangedOutside f s t := by
  obtain ⟨m, rfl⟩ : ∃ m, t = { s with mem := m } := ⟨_, h.frame⟩
  simpa [unchangedOutside, State.getV, State.pixel] using hr

theorem unchangedOutside_advanceI (i : Word) (x : RegIdx) (h : s.params.ldstI = .increment → f.i = true) :
    unchangedOutside f s (s.advanceI i x) := by
  unfold State.advanceI
  cases hp : s.params.ldstI with
  | unchanged => exact unchangedOutside_refl f s
  | increment => exact unchangedOutside_setI _ (h hp)

/-- What RET and CALL write when they complete. -/
theorem unchangedOutside_control {stack : Vector Word 16} (pc : Word) (sp : Fin 17) (hpc : f.pc = true)
    (hsp : f.sp = true) (hstack : f.stack = false → stack = s.stack) :
    unchangedOutside f s { s with pc := pc, stack := stack, sp := sp } := by
  simpa [unchangedOutside, hpc, hsp, State.getV, State.memRead, State.pixel] using hstack

end Frame

theorem vf_mem_pair (x : RegIdx) : vf ∈ [x, vf] := List.mem_cons_of_mem _ List.mem_cons_self

/-- An instruction writes nothing outside its footprint (40_cycle.md R96; 10_state.md R22, R23). -/
theorem exec_unchangedOutside {ins : Instr} {s t : State} (h : exec ins s = .next t) :
    unchangedOutside (footprint ins s) s t := by
  have of_next : ∀ u, exec ins s = .next u → unchangedOutside (footprint ins s) s u →
      unchangedOutside (footprint ins s) s t := by
    intro u hu hframe
    rw [hu] at h
    cases h
    exact hframe
  cases ins
  case cls => exact of_next _ rfl ((unchangedOutside_setFb _ rfl).trans (unchangedOutside_setDirty _ rfl))
  case ret =>
    by_cases hsp : 0 < s.sp.val
    · exact of_next _ (exec_ret_of_pos s hsp) (unchangedOutside_control _ _ rfl rfl fun _ => rfl)
    · exact of_next _ (exec_ret_of_empty s (by omega)) (unchangedOutside_setMode _ rfl)
  case jp | jpV0 => exact of_next _ rfl (unchangedOutside_setPc _ rfl)
  case call nnn =>
    by_cases hsp : s.sp.val < 16
    · exact of_next _ (exec_call_of_lt s nnn hsp) (unchangedOutside_control _ _ rfl rfl nofun)
    · exact of_next _ (exec_call_of_full s nnn (by omega)) (unchangedOutside_setMode _ rfl)
  case seByte | sneByte | seReg | sneReg => exact of_next _ rfl (unchangedOutside_skipIf _ rfl)
  case ldByte | addByte | ldReg | orReg | andReg | xorReg | ldVxDt =>
    exact of_next _ rfl (unchangedOutside_setV _ List.mem_cons_self)
  case addReg x y =>
    exact of_next _ rfl
      ((unchangedOutside_setV _ List.mem_cons_self).trans (unchangedOutside_setV _ (vf_mem_pair x)))
  case subReg x y | shr x y | subnReg x y | shl x y =>
    exact of_next _ rfl (unchangedOutside_flagAndResult _ _ _ List.mem_cons_self (vf_mem_pair x))
  case rnd =>
    exact of_next _ rfl ((unchangedOutside_setV _ List.mem_cons_self).trans (unchangedOutside_countDraw rfl))
  case drw =>
    exact of_next _ rfl (((unchangedOutside_setFb _ rfl).trans (unchangedOutside_setV _ List.mem_cons_self)).trans
      (unchangedOutside_setDirty _ rfl))
  case skp x =>
    by_cases hx : (s.getV x).toNat ≤ 15
    · exact of_next _ (exec_skp_of_le s x hx) (unchangedOutside_skipIf _ rfl)
    · exact of_next _ (exec_skp_of_gt s x (by omega)) (unchangedOutside_setMode _ rfl)
  case sknp x =>
    by_cases hx : (s.getV x).toNat ≤ 15
    · exact of_next _ (exec_sknp_of_le s x hx) (unchangedOutside_skipIf _ rfl)
    · exact of_next _ (exec_sknp_of_gt s x (by omega)) (unchangedOutside_setMode _ rfl)
  case ldVxK => exact of_next _ rfl (unchangedOutside_setMode _ rfl)
  case ldDtVx => exact of_next _ rfl (unchangedOutside_setDt _ rfl)
  case ldStVx => exact of_next _ rfl (unchangedOutside_setSt _ rfl)
  case ldI | addI | ldF => exact of_next _ rfl (unchangedOutside_setI _ rfl)
  case ldB x =>
    rcases s.storeBytes_cases (decimalDigits (s.getV x)) (show 3 ≤ 4096 by decide) with
      ⟨u, hu, honly, -, hread⟩ | ⟨a, ha, -, -⟩
    · exact of_next _ (exec_ldB_of_ok s hu) (unchangedOutside_of_onlyMemory honly hread)
    · exact of_next _ (exec_ldB_of_error s ha) (unchangedOutside_setMode _ rfl)
  case storeRegs x =>
    rcases s.storeBytes_cases (regsThrough x s) (by rw [regsThrough_length]; omega) with
      ⟨u, hu, honly, -, hread⟩ | ⟨a, ha, -, -⟩
    · rw [regsThrough_length] at hread
      exact of_next _ (exec_storeRegs_of_ok s hu) ((unchangedOutside_of_onlyMemory honly hread).trans
        (unchangedOutside_advanceI _ _ fun hp => beq_iff_eq.mpr (honly.params ▸ hp)))
    · exact of_next _ (exec_storeRegs_of_error s ha) (unchangedOutside_setMode _ rfl)
  case loadRegs x =>
    have hload : unchangedOutside (footprint (.loadRegs x) s) s (s.loadV s.i x.val) :=
      unchangedOutside_loadV _ _ fun j hj => List.mem_filter.mpr ⟨List.mem_finRange j, decide_eq_true hj⟩
    have hparams : (s.loadV s.i x.val).params = s.params := by rw [(s.loadV_spec s.i x.val x.isLt).1]
    exact of_next _ rfl (hload.trans (unchangedOutside_advanceI _ _ fun hp => beq_iff_eq.mpr (hparams ▸ hp)))

/-! ### VF and FB_DIRTY -/

theorem mem_footprint_v_of_flagsVf {ins : Instr} (s : State) (h : flagsVf ins) : vf ∈ (footprint ins s).v := by
  rcases h with ⟨x, y, rfl | rfl | rfl⟩ | ⟨x, y, rfl | rfl⟩ | ⟨x, y, n, rfl⟩ <;> simp [footprint]

/-- VF is in the footprint only of the flag writers and of the instructions that name it as their destination
(10_state.md R22). -/
theorem flagsVf_or_namesVf_of_mem_footprint {ins : Instr} {s : State} (h : vf ∈ (footprint ins s).v) :
    flagsVf ins ∨ namesVf ins := by
  cases ins
  case addReg | subReg | shr | subnReg | shl | drw => exact .inl (by simp [flagsVf])
  case ldByte | addByte | ldReg | orReg | andReg | xorReg | rnd | ldVxDt =>
    obtain rfl := List.mem_singleton.mp h
    exact .inr (by simp [namesVf])
  case loadRegs x =>
    have hle : vf ≤ x := of_decide_eq_true (List.mem_filter.mp h).2
    obtain rfl : x = vf := Fin.le_antisymm (Fin.le_last x) hle
    exact .inr (by simp [namesVf])
  all_goals exact nomatch h

theorem exec_getV_vf {ins : Instr} {s t : State} (h : exec ins s = .next t) (hf : ¬ flagsVf ins) (hn : ¬ namesVf ins) :
    t.getV vf = s.getV vf := by
  obtain ⟨hv, -⟩ := exec_unchangedOutside h
  exact hv vf fun hm => (flagsVf_or_namesVf_of_mem_footprint hm).elim hf hn

theorem exec_fbDirty_of_footprint {ins : Instr} {s t : State} (h : exec ins s = .next t)
    (hf : (footprint ins s).fbDirty = false) : t.fbDirty = s.fbDirty := by
  obtain ⟨-, -, -, -, -, -, -, -, -, -, hdirty, -⟩ := exec_unchangedOutside h
  exact hdirty hf

/-- From FB_DIRTY = 0, an instruction sets it exactly if it is CLS or DRW (10_state.md R40). -/
theorem exec_fbDirty_iff {ins : Instr} {s t : State} (h : exec ins s = .next t) (hs : s.fbDirty = false) :
    t.fbDirty = true ↔ ins = .cls ∨ ∃ x y n, ins = .drw x y n := by
  cases ins
  case cls | drw => cases h; simp
  all_goals simp [exec_fbDirty_of_footprint h rfl, hs]

/-! ### What a step of any agent does to the fields the invariants speak of -/

theorem Effect.trans {s t u : State} (h : Effect s t) (g : Effect t u) : Effect s u where
  params := g.params.trans h.params
  schedule := g.schedule.trans h.schedule
  key := g.key.trans h.key
  log := g.log.trans h.log
  wf := fun w => h.params ▸ g.wf (h.params ▸ h.wf w)
  low := fun p l => g.low (h.params ▸ p) (h.low p l)
  index := by
    rcases g.index with hi | hi
    · exact hi ▸ h.index
    · exact .inr hi

theorem Effect.of_endWait (s : State) (x k : RegIdx) : Effect s (s.endWait x k) := (Effect.of_setV s x _).setMode _

theorem Effect.of_waitStep (s : State) (x : RegIdx) (prev : Word) : Effect s (s.waitStep x prev) := by
  rcases s.waitStep_cases x prev with ⟨-, h⟩ | ⟨k, -, h | h⟩ <;> rw [h]
  · exact (Effect.refl s).setMode _
  · exact .of_endWait s x k
  · exact (Effect.of_endWait s x k).trans (.of_same rfl (.inl rfl) rfl rfl rfl rfl)

/-- Memory in canonical form and 12 bits of I depend on nothing an effect may change otherwise (10_state.md R24). -/
theorem Effect.inv {s t : State} (h : Effect s t) (hs : s.Inv) : t.Inv where
  memory := h.params ▸ h.wf hs.memory
  index := by
    rcases h.index with hi | ⟨w, hi⟩
    · exact hi ▸ hs.index
    · exact hi ▸ mask12_le w

/-- What a step changes besides an instruction's effect: the moves still to come, new records of LOG, and KEY. -/
def State.turned (s : State) (rest : List Move) (new : List LogRecord) (key : Word) : State :=
  { s with schedule := rest, log := s.log ++ new, key := key }

theorem State.turned_inv {s : State} (hs : s.Inv) (rest : List Move) (new : List LogRecord) (key : Word) :
    (s.turned rest new key).Inv := ⟨hs.memory, hs.index⟩

/-- `t` comes by an instruction's effect from `s` after its turn: LOG has at most one new record, and KEY is the old one
unless the keypad moved (10_state.md R41, R42). -/
def TurnEffect (s t : State) : Prop :=
  ∃ rest new key, Effect (s.turned rest new key) t ∧ new.length ≤ 1 ∧
    (key = s.key ∨ ∃ ms, s.schedule = .keys key :: ms)

/-- A turn with no new record and no move of the keypad. -/
theorem TurnEffect.of_effect {s t : State} {rest : List Move} (h : Effect (s.setSchedule rest) t) :
    TurnEffect s t := by
  have hbase : s.turned rest [] s.key = s.setSchedule rest := by simp [State.turned, State.setSchedule]
  exact ⟨rest, [], s.key, hbase ▸ h, Nat.zero_le 1, .inl rfl⟩

theorem step_turnEffect {s t : State} (h : step s = .next t) : TurnEffect s t := by
  cases stepped_of_step h with
  | misaligned rest hn hr odd eq => exact .of_effect (rest := rest) (eq ▸ .of_same rfl (.inl rfl) rfl rfl rfl rfl)
  | unknown rest hn hr aligned dec eq =>
    exact ⟨rest, [⟨s.pc, fetchedOpcode s⟩], s.key, eq ▸ .of_same rfl (.inl rfl) rfl rfl rfl rfl, Nat.le_refl 1,
      .inl rfl⟩
  | execute rest ins hn hr aligned dec eq =>
    have hfetch : Effect (s.setSchedule rest) (s.fetched rest) := .of_same rfl (.inl rfl) rfl rfl rfl rfl
    exact .of_effect (hfetch.trans (exec_effect_of_next eq).1)
  | wait rest x prev hn hw eq => exact .of_effect (eq ▸ Effect.of_waitStep (s.setSchedule rest) x prev)
  | tick rest hl hn eq => exact .of_effect (rest := rest) (eq ▸ .of_same rfl (.inl rfl) rfl rfl rfl rfl)
  | keys rest now hl hn eq =>
    exact ⟨rest, [], now, eq ▸ .of_same rfl (.inl rfl) rfl (List.append_nil s.log).symm rfl rfl, Nat.zero_le 1,
      .inr ⟨rest, hn⟩⟩
  | cancel rest hl hn eq => exact .of_effect (eq ▸ (Effect.refl (s.setSchedule rest)).setMode _)

/-- How one keypad sample changes MODE (45_keys_timers.md R195). -/
theorem State.waitStep_mode (s : State) (x : RegIdx) (prev : Word) :
    (s.waitStep x prev).mode = .waitingForKey x s.key ∨
      ((s.waitStep x prev).mode = .running ∧ ∃ k, pressedSince prev s.key k) := by
  rcases s.waitStep_cases x prev with ⟨-, h⟩ | ⟨k, hk, h | h⟩ <;> rw [h]
  · exact .inl rfl
  · exact .inr ⟨rfl, k, hk⟩
  · exact .inr ⟨rfl, k, hk⟩

/-! ### The obligations -/

/-- Settles O17: a step is an effect on the state after its turn, and both keep the invariant. -/
theorem stepKeepsInv : Obligations.StepKeepsInv := by
  intro s t hs h
  obtain ⟨rest, new, key, he, -, -⟩ := step_turnEffect h
  exact he.inv (State.turned_inv hs rest new key)

/-- Settles O27, by the footprint of the instruction. -/
theorem vfWrittenOnlyByFlagWriters : Obligations.VfWrittenOnlyByFlagWriters := by
  refine ⟨fun ins s t h hf hn => exec_getV_vf h hf hn, fun ins s hf => ?_⟩
  obtain ⟨t, ht, -⟩ := exec_effect ins s
  exact ⟨t, ht, exec_unchangedOutside ht, mem_footprint_v_of_flagsVf s hf⟩

/-- Settles O29, by the moves a step can be. -/
theorem modeChangesOnlyAsR38Says : Obligations.ModeChangesOnlyAsR38Says := by
  intro s t h
  refine ⟨live_of_step h, ?_⟩
  cases stepped_of_step h with
  | misaligned rest hn hr odd eq => exact .inr (.inr (.inl ⟨hr, _, by rw [eq]⟩))
  | unknown rest hn hr aligned dec eq => exact .inl (eq ▸ rfl)
  | execute rest ins hn hr aligned dec eq =>
    rcases (exec_effect_of_next eq).2 with hm | ⟨x, -, hm⟩ | hm
    · exact .inl hm
    · exact .inr (.inl ⟨hr, x, hm⟩)
    · exact .inr (.inr (.inl ⟨hr, hm⟩))
  | wait rest x prev hn hw eq =>
    exact .inr (.inr (.inr (.inl ⟨x, prev, hw, eq ▸ (s.setSchedule rest).waitStep_mode x prev⟩)))
  | tick rest hl hn eq => exact .inl (eq ▸ rfl)
  | keys rest now hl hn eq => exact .inl (eq ▸ rfl)
  | cancel rest hl hn eq => exact .inr (.inr (.inr (.inr ⟨eq ▸ rfl, rest, hn⟩)))

/-- Settles O30: the fetch clears FB_DIRTY, and only CLS and DRW set it. -/
theorem dirtyExactlyAfterClsOrDrw : Obligations.DirtyExactlyAfterClsOrDrw := by
  intro s t rest hr hn h
  rw [step_cycle hn hr] at h
  by_cases odd : s.params.oddPc = .fault ∧ s.pc.toNat % 2 = 1
  · rw [if_pos odd] at h
    cases h
    simp [odd]
  · have aligned : s.params.oddPc = .fault → s.pc.toNat % 2 = 0 :=
      fun hp => Nat.mod_two_ne_one.mp fun ho => odd ⟨hp, ho⟩
    rw [if_neg odd] at h
    cases hd : decode s.params.decode59 (fetchedOpcode s) with
    | none =>
      rw [hd] at h
      cases h
      simp [State.fetched]
    | some ins =>
      rw [hd] at h
      rw [and_iff_right aligned]
      simpa using exec_fbDirty_iff h rfl

/-- Settles O31: a step is an effect on the state after its turn, and an effect keeps LOG and KEY. -/
theorem stepKeepsParamsAndOnlyExtendsLog : Obligations.StepKeepsParamsAndOnlyExtendsLog := by
  intro s t h
  obtain ⟨rest, new, key, he, hnew, hkey⟩ := step_turnEffect h
  exact ⟨he.params, ⟨new, he.log, hnew⟩,
    hkey.imp he.key.trans fun ⟨ms, hms⟩ => ⟨key, ms, hms, he.key⟩⟩

/-- Settles O35, on each side of the depth check. -/
theorem retPopsReturnAddress : Obligations.RetPopsReturnAddress := by
  refine fun s => ⟨fun hsp => ?_, fun hsp => ?_⟩
  · exact ⟨_, exec_ret_of_pos s hsp, rfl, rfl, unchangedOutside_control _ _ rfl rfl fun _ => rfl⟩
  · exact ⟨_, exec_ret_of_empty s hsp, rfl, rfl, rfl⟩

/-- Settles O36, on each side of the depth check. -/
theorem callPushesAndJumps : Obligations.CallPushesAndJumps := by
  refine fun nnn s => ⟨fun hsp => ?_, fun hsp => ?_⟩
  · have hstack : ∀ k, (hk : k < 16) →
        (s.stack.set s.sp.val s.pc)[k] = if k = s.sp.val then s.pc else s.stack[k] := fun k hk => by
      simp [Vector.getElem_set, eq_comm]
    exact ⟨_, exec_call_of_lt s nnn hsp, zextNnn_toNat nnn, rfl, hstack, unchangedOutside_control _ _ rfl rfl nofun⟩
  · exact ⟨_, exec_call_of_full s nnn hsp, rfl, rfl, rfl, rfl⟩

end Sys2Proof.Machine
end

section
/-! PROOFS. The statements of 20_memory.md: a canonical memory is the set of its reads that differ from the reset contents,
reset meets the invariants, and a store at I is read back at every later address that names the same byte. -/

namespace Sys2Proof.Machine

/-! ### Canonical memories -/

theorem Memory.mem_of_lookup {m : List Host.Cell} {a : Nat} {b : Byte} (h : Memory.lookup m a = some b) :
    (a, b) ∈ m := by
  induction m with
  | nil => cases h
  | cons c m ih =>
    unfold Memory.lookup at h
    split at h
    case isTrue ha =>
      obtain rfl : c = (a, b) := Prod.ext ha (Option.some.inj h)
      exact List.mem_cons_self
    case isFalse => exact List.mem_cons_of_mem _ (ih h)

/-- The cells of a canonical memory are its reads that differ from the reset contents (20_memory.md R50; log 17). -/
theorem Memory.mem_iff_read {font : Font} {m : List Host.Cell} (h : Memory.wf font m) (c : Host.Cell) :
    c ∈ m ↔ c.1 < 4096 ∧ c.2 ≠ Memory.resetByte font c.1 ∧ Memory.read font m c.1 = c.2 := by
  obtain ⟨rising, cells⟩ := h
  constructor
  · intro hc
    obtain ⟨hlt, hne⟩ := cells c hc
    exact ⟨hlt, hne, by simp [Memory.read, Memory.lookup_of_mem rising hc]⟩
  · rintro ⟨-, hne, hread⟩
    cases hl : Memory.lookup m c.1 with
    | none => exact absurd (hread.symm.trans (Memory.read_of_lookup_none hl)) hne
    | some b =>
      obtain rfl : b = c.2 := by simpa [Memory.read, hl] using hread
      exact Memory.mem_of_lookup hl

/-! ### Reset -/

theorem resetIndex_le (p : Params) : (resetIndex p).toNat ≤ 0xFFF := by
  unfold resetIndex
  split
  · decide
  · have := Config.resetI.isLt
    rw [BitVec.toNat_setWidth]
    omega

/-- Memory is canonical and I has 12 bits at reset, whatever the parameters (70_reset_and_hazards.md R241, R246). -/
theorem State.resetWith_inv (p : Params) : (State.resetWith p).Inv := ⟨Memory.wf_nil p.font, resetIndex_le p⟩

theorem State.memRead_resetWith (p : Params) {a : Nat} (ha : a < 4096) :
    (State.resetWith p).memRead a = Memory.resetByte p.font a := by
  unfold State.memRead
  rw [Nat.mod_eq_of_lt ha]
  exact Memory.read_nil p.font a

theorem State.resetWith_lowIntact (p : Params) : (State.resetWith p).LowIntact :=
  fun _ ha => State.memRead_resetWith p (by omega)

theorem OnlyMemory.inv {s t : State} (h : OnlyMemory s t) (hs : s.Inv) : t.Inv := (Effect.of_onlyMemory h).inv hs

/-! ### Stores at I and the fetch -/

@[simp] theorem State.pc_advanceI (s : State) (i : Word) (x : RegIdx) : (s.advanceI i x).pc = s.pc := by
  rw [State.advanceI_eq]

@[simp] theorem State.memRead_advanceI (s : State) (i : Word) (x : RegIdx) (a : Nat) :
    (s.advanceI i x).memRead a = s.memRead a := by
  rw [State.advanceI_eq]
  rfl

/-- Words that name one byte address name the same addresses after it (20_memory.md R51). -/
theorem byteAddr_congr {b c : Word} (h : byteAddr b 0 = byteAddr c 0) (k : Nat) : byteAddr b k = byteAddr c k := by
  unfold byteAddr at h ⊢
  omega

/-- The fetch reads at the wrapped addresses of PC (20_memory.md R51, R56). -/
theorem fetchedOpcode_eq_byteAddr (s : State) :
    fetchedOpcode s = s.memRead (byteAddr s.pc 0) ++ s.memRead (byteAddr s.pc 1) := by
  rw [State.memRead_byteAddr, State.memRead_byteAddr]
  rfl

/-- A byte stored at 0x200 or above reads as itself under every P_LOW_WRITE (20_memory.md R53). -/
theorem storedByte_of_le {a : Nat} (s : State) (b : Byte) (h : 0x200 ≤ a) : storedByte s a b = b := if_pos (.inl h)

/-- LD [I], Vx, where no address is refused: a change of memory alone, after which the byte at I + k is the one stored from
Vk, then P_LDST_I (44_index_memory.md R174, R176). -/
theorem exec_storeRegs_of_allowed (s : State) (x : RegIdx) (h : storeAllowed s (x.val + 1)) :
    ∃ u, exec (.storeRegs x) s = .next (u.advanceI s.i x) ∧ OnlyMemory s u ∧
      ∀ k : RegIdx, k ≤ x → u.memRead (byteAddr s.i k.val) = storedByte s (byteAddr s.i k.val) (s.getV k) := by
  obtain ⟨u, hu, honly, hin, -⟩ :=
    s.storeBytes_allowed (regsThrough x s) (by rw [regsThrough_length]; omega) (by rwa [regsThrough_length])
  refine ⟨u, exec_storeRegs_of_ok s hu, honly, fun k hk => ?_⟩
  have hlt : k.val < (regsThrough x s).length := by
    rw [regsThrough_length]
    exact Nat.lt_succ_of_le hk
  rw [hin k.val hlt, regsThrough_getElem]

/-! ### The obligations -/

/-- Settles O18: the turn touches no byte, and an effect keeps the region below 0x200. -/
theorem stepKeepsFontRegion : Obligations.StepKeepsFontRegion := by
  intro s t hp hs h
  obtain ⟨rest, new, key, he, -, -⟩ := step_turnEffect h
  have hturned : (s.turned rest new key).LowIntact := hs
  exact he.low hp hturned

/-- Settles O19: canonical lists with the same cells are equal, and the reads say which cells there are. -/
theorem canonicalMemoriesWithSameReadsAreEqual : Obligations.CanonicalMemoriesWithSameReadsAreEqual := by
  intro font m m' hm hm' hread
  have hcells : ∀ c, c ∈ m ↔ c ∈ m' := fun c => by
    rw [Memory.mem_iff_read hm, Memory.mem_iff_read hm']
    exact and_congr_right fun hc => by rw [hread c.1 hc]
  exact List.Pairwise.eq_of_mem_iff (r := Prod.fst ⁻¹'o (· < ·)) hm.1 hm'.1 hcells

/-- Settles O23: a load that fits places its bytes above 0x200 in the reset state, which meets the invariants. -/
theorem programLoadCopiesImage : Obligations.ProgramLoadCopiesImage := by
  intro p rom hrom
  rw [State.boot_of_fits p rom hrom]
  obtain ⟨here, there, only⟩ := (State.resetWith p).placeBytes_spec rom 0x200 (Nat.le_refl _) (by omega)
  refine ⟨here, there, only.frame, only.inv (State.resetWith_inv p), fun a ha => ?_⟩
  rw [there a (by omega) (.inl ha), only.params]
  exact State.resetWith_lowIntact p a ha

/-- Settles O53: the two bytes at PC are the first two bytes stored at I. -/
theorem nextFetchSeesStoredBytes : Obligations.NextFetchSeesStoredBytes := by
  intro x s hx hpc hlow
  obtain ⟨u, hu, honly, hin⟩ := exec_storeRegs_of_allowed s x fun _ => hlow
  have hupc : u.pc = s.pc := by rw [honly.frame]
  have hstored : ∀ k : RegIdx, k ≤ x → u.memRead (byteAddr s.pc k.val) = s.getV k := fun k hk => by
    rw [byteAddr_congr hpc, hin k hk, storedByte_of_le s _ (hlow k.val (Nat.lt_succ_of_le hk))]
  refine ⟨_, hu, (State.pc_advanceI u s.i x).trans hupc, ?_⟩
  rw [fetchedOpcode_eq_byteAddr, State.pc_advanceI, State.memRead_advanceI, State.memRead_advanceI, hupc]
  exact congrArg₂ _ (hstored 0 (Fin.zero_le x)) (hstored 1 hx)

end Sys2Proof.Machine
end

section
/-! PROOFS. The statements of 30_encoding.md: an opcode is the encoding of its fields, so decode and encode are inverse; the
Unknown opcodes as arithmetic on the opcode; the rows of the table as masks of its fields. -/

namespace Sys2Proof

variable {d : Decode59} {w : Word} {op : BitVec 4} {ins : Instr}

/-! ### An opcode whose keys are known is the encoding of its other fields (30_encoding.md R71) -/

theorem encodeNnn_of_op (hop : opField w = op) : encodeNnn op (nnnField w) = w := hop ▸ encodeNnn_fields w

theorem encodeXnn_of_keys {nn : Byte} (hop : opField w = op) (hnn : nnField w = nn) : encodeXnn op (xField w) nn = w :=
  hop ▸ hnn ▸ encodeXnn_fields w

theorem encodeXyn_of_keys {n : BitVec 4} (hop : opField w = op) (hn : nNibble w = n) :
    encodeXyn op (xNibble w) (yNibble w) n = w := hop ▸ hn ▸ encodeXyn_fields w

/-! ### What decodes is an encoding -/

/-- `w` is the opcode of `ins`, a well-formed instruction. -/
def Encodes (d : Decode59) (ins : Instr) (w : Word) : Prop := encode ins = w ∧ ins.wellFormed d = true

theorem encodes_of_decodeFamily0 (h : decodeFamily0 w = some ins) : Encodes d ins w := by
  unfold decodeFamily0 at h
  split_ifs at h with hcls hret <;> cases h
  · exact ⟨hcls.symm, rfl⟩
  · exact ⟨hret.symm, rfl⟩

theorem encodes_of_decodeIfNibbleOk {i : Instr} (h : decodeIfNibbleOk d w i = some ins) (henc : encode i = w)
    (hwf : i.wellFormed d = ignoredNibbleOk d (nNibble w)) : Encodes d ins w := by
  obtain ⟨hok, hi⟩ := Option.ite_none_right_eq_some.mp h
  cases hi
  exact ⟨henc, hwf.trans hok⟩

theorem encodes_of_decodeFamily8 (hop : opField w = 0x8) (h : decodeFamily8 w = some ins) : Encodes d ins w := by
  unfold decodeFamily8 at h
  split_ifs at h <;> cases h <;> exact ⟨encodeXyn_of_keys hop ‹_›, rfl⟩

theorem encodes_of_decodeFamilyE (hop : opField w = 0xE) (h : decodeFamilyE w = some ins) : Encodes d ins w := by
  unfold decodeFamilyE at h
  split_ifs at h <;> cases h <;> exact ⟨encodeXnn_of_keys hop ‹_›, rfl⟩

theorem encodes_of_decodeFamilyF (hop : opField w = 0xF) (h : decodeFamilyF w = some ins) : Encodes d ins w := by
  unfold decodeFamilyF at h
  split_ifs at h <;> cases h <;> exact ⟨encodeXnn_of_keys hop ‹_›, rfl⟩

/-- The op field says which family an opcode is of (30_encoding.md R75): one bullet for each of its values, in order. -/
theorem encodes_of_decode (h : decode d w = some ins) : Encodes d ins w := by
  rcases nibble_cases (opField w) with
    hop | hop | hop | hop | hop | hop | hop | hop | hop | hop | hop | hop | hop | hop | hop | hop <;>
    simp [decode, hop] at h
  · exact encodes_of_decodeFamily0 h
  · exact h ▸ ⟨encodeNnn_of_op hop, rfl⟩
  · exact h ▸ ⟨encodeNnn_of_op hop, rfl⟩
  · exact h ▸ ⟨encodeXnn_of_keys hop rfl, rfl⟩
  · exact h ▸ ⟨encodeXnn_of_keys hop rfl, rfl⟩
  · exact encodes_of_decodeIfNibbleOk h (encodeXyn_of_keys hop rfl) rfl
  · exact h ▸ ⟨encodeXnn_of_keys hop rfl, rfl⟩
  · exact h ▸ ⟨encodeXnn_of_keys hop rfl, rfl⟩
  · exact encodes_of_decodeFamily8 hop h
  · exact encodes_of_decodeIfNibbleOk h (encodeXyn_of_keys hop rfl) rfl
  · exact h ▸ ⟨encodeNnn_of_op hop, rfl⟩
  · exact h ▸ ⟨encodeNnn_of_op hop, rfl⟩
  · exact h ▸ ⟨encodeXnn_of_keys hop rfl, rfl⟩
  · exact h ▸ ⟨encodeXyn_of_keys hop rfl, rfl⟩
  · exact encodes_of_decodeFamilyE hop h
  · exact encodes_of_decodeFamilyF hop h

/-! ### What is encoded decodes -/

/-- The fields of an encoding are the ones it was built from, so each family's key picks the instruction again. -/
theorem decode_encode (h : ins.wellFormed d = true) : decode d (encode ins) = some ins := by
  cases ins
  case cls | ret => rfl
  case jp | call | ldI | jpV0 => simp [encode, decode]
  case seByte | sneByte | ldByte | addByte | rnd => simp [encode, decode]
  case drw => simp [encode, decode]
  case seReg x y n | sneReg x y n =>
    have hn : ignoredNibbleOk d n = true := h
    simp [encode, decode, decodeIfNibbleOk, hn]
  case ldReg | orReg | andReg | xorReg | addReg | subReg | shr | subnReg | shl => simp [encode, decode, decodeFamily8]
  case skp | sknp => simp [encode, decode, decodeFamilyE]
  case ldVxDt | ldVxK | ldDtVx | ldStVx | addI | ldF | ldB | storeRegs | loadRegs =>
    simp [encode, decode, decodeFamilyF]

/-! ### The Unknown opcodes as arithmetic (30_encoding.md R77) -/

theorem opField_eq_iff : opField w = op ↔ w.toNat / 4096 = op.toNat := by rw [← BitVec.toNat_inj, opField_toNat]

theorem nNibble_eq_iff {n : BitVec 4} : nNibble w = n ↔ w.toNat % 16 = n.toNat := by
  rw [← BitVec.toNat_inj, nNibble_toNat]

theorem nnField_eq_iff {nn : Byte} : nnField w = nn ↔ w.toNat % 256 = nn.toNat := by
  rw [← BitVec.toNat_inj, nnField_toNat]

theorem decodeFamily0_eq_none_iff : decodeFamily0 w = none ↔ w.toNat ≠ 0x00E0 ∧ w.toNat ≠ 0x00EE := by
  simp [decodeFamily0, ite_eq_iff, ← BitVec.toNat_inj]

theorem decodeFamily8_eq_none_iff :
    decodeFamily8 w = none ↔ w.toNat % 16 ∈ [0x8, 0x9, 0xA, 0xB, 0xC, 0xD, 0xF] := by
  simp [decodeFamily8, ite_eq_iff, nNibble_eq_iff]
  omega

theorem decodeIfNibbleOk_eq_none_iff : decodeIfNibbleOk d w ins = none ↔ d = .strict ∧ w.toNat % 16 ≠ 0 := by
  cases d <;> simp [decodeIfNibbleOk, ignoredNibbleOk, nNibble_eq_iff]

theorem decodeFamilyE_eq_none_iff : decodeFamilyE w = none ↔ w.toNat % 256 ∉ [0x9E, 0xA1] := by
  simp [decodeFamilyE, ite_eq_iff, nnField_eq_iff]

theorem decodeFamilyF_eq_none_iff :
    decodeFamilyF w = none ↔ w.toNat % 256 ∉ [0x07, 0x0A, 0x15, 0x18, 0x1E, 0x29, 0x33, 0x55, 0x65] := by
  simp [decodeFamilyF, ite_eq_iff, nnField_eq_iff]

/-- The Unknown opcodes by family (30_encoding.md R77); the last line is what `strict` adds (R76). -/
theorem decode_eq_none_iff : decode d w = none ↔
    (w.toNat / 4096 = 0 ∧ w.toNat ≠ 0x00E0 ∧ w.toNat ≠ 0x00EE) ∨
    (w.toNat / 4096 = 8 ∧ w.toNat % 16 ∈ [0x8, 0x9, 0xA, 0xB, 0xC, 0xD, 0xF]) ∨
    (w.toNat / 4096 = 0xE ∧ w.toNat % 256 ∉ [0x9E, 0xA1]) ∨
    (w.toNat / 4096 = 0xF ∧ w.toNat % 256 ∉ [0x07, 0x0A, 0x15, 0x18, 0x1E, 0x29, 0x33, 0x55, 0x65]) ∨
    (d = .strict ∧ (w.toNat / 4096 = 5 ∨ w.toNat / 4096 = 9) ∧ w.toNat % 16 ≠ 0) := by
  rw [← decodeFamily0_eq_none_iff, ← decodeFamily8_eq_none_iff, ← decodeFamilyE_eq_none_iff, ← decodeFamilyF_eq_none_iff,
    ← opField_toNat]
  rcases nibble_cases (opField w) with
    hop | hop | hop | hop | hop | hop | hop | hop | hop | hop | hop | hop | hop | hop | hop | hop <;>
    simp [decode, hop, decodeIfNibbleOk_eq_none_iff]

/-! ### Rows of the table (30_encoding.md R75) -/

theorem rowMatches_iff {m v : Word} : rowMatches w (m, v) = true ↔ w &&& m = v := beq_iff_eq

open Laws.EncodingRow in
/-- Under either value of P_DECODE_5_9 the encoding of a well-formed instruction matches the instruction's own row. -/
theorem encode_matches_own_row (h : ins.wellFormed d = true) :
    ∃ r, (opcodeRows d)[ins.rowIndex]? = some r ∧ rowMatches (encode ins) r = true := by
  cases ins
  case cls | ret => exact ⟨_, rfl, by decide⟩
  case jp | call | ldI | jpV0 => exact ⟨_, rfl, rowMatches_iff.mpr (nnn_row _ _)⟩
  case seByte | sneByte | ldByte | addByte | rnd => exact ⟨_, rfl, rowMatches_iff.mpr (xnn_row _ _ _)⟩
  case drw => exact ⟨_, rfl, rowMatches_iff.mpr (xyn_row _ _ _ _)⟩
  case seReg x y n | sneReg x y n =>
    cases d
    case highNibble => exact ⟨_, rfl, rowMatches_iff.mpr (xyn_row _ _ _ _)⟩
    case strict =>
      obtain rfl : n = 0 := beq_iff_eq.mp h
      exact ⟨_, rfl, rowMatches_iff.mpr (xyn_row_key _ _ _ _)⟩
  case ldReg | orReg | andReg | xorReg | addReg | subReg | shr | subnReg | shl =>
    exact ⟨_, rfl, rowMatches_iff.mpr (xyn_row_key _ _ _ _)⟩
  case skp | sknp | ldVxDt | ldVxK | ldDtVx | ldStVx | addI | ldF | ldB | storeRegs | loadRegs =>
    exact ⟨_, rfl, rowMatches_iff.mpr (xnn_row_key _ _ _)⟩

section Masks

open Laws.EncodingRow

variable (w : Word)

theorem opField_and_F000 : opField (w &&& 0xF000) = opField w := by
  conv_lhs => rw [← encodeXyn_fields w, xyn_row, opField_encodeXyn]

theorem opField_and_F00F : opField (w &&& 0xF00F) = opField w := by
  conv_lhs => rw [← encodeXyn_fields w, xyn_row_key, opField_encodeXyn]

theorem nNibble_and_F00F : nNibble (w &&& 0xF00F) = nNibble w := by
  conv_lhs => rw [← encodeXyn_fields w, xyn_row_key, nNibble_encodeXyn]

theorem opField_and_F0FF : opField (w &&& 0xF0FF) = opField w := by
  conv_lhs => rw [← encodeXnn_fields w, xnn_row_key, opField_encodeXnn]

theorem nnField_and_F0FF : nnField (w &&& 0xF0FF) = nnField w := by
  conv_lhs => rw [← encodeXnn_fields w, xnn_row_key, nnField_encodeXnn]

end Masks

/-- The rows by family: the mask, and the fields of the match value that the mask keeps. -/
theorem opcodeRows_keys (d : Decode59) : ∀ r ∈ opcodeRows d,
    (r.1 = 0xFFFF ∧ r.2 ∈ [0x00E0, 0x00EE]) ∨
    (r.1 = 0xF000 ∧ opField r.2 ∈ [0x1, 0x2, 0x3, 0x4, 0x6, 0x7, 0xA, 0xB, 0xC, 0xD]) ∨
    (r.1 = maskFor59 d ∧ opField r.2 ∈ [0x5, 0x9] ∧ nNibble r.2 = 0) ∨
    (r.1 = 0xF00F ∧ opField r.2 = 0x8 ∧ nNibble r.2 ∈ [0x0, 0x1, 0x2, 0x3, 0x4, 0x5, 0x6, 0x7, 0xE]) ∨
    (r.1 = 0xF0FF ∧ opField r.2 = 0xE ∧ nnField r.2 ∈ [0x9E, 0xA1]) ∨
    (r.1 = 0xF0FF ∧ opField r.2 = 0xF ∧
      nnField r.2 ∈ [0x07, 0x0A, 0x15, 0x18, 0x1E, 0x29, 0x33, 0x55, 0x65]) := by
  cases d <;> decide

theorem decode_ne_none_of_rowMatches {r : Word × Word} (hr : r ∈ opcodeRows d) (hm : rowMatches w r = true) :
    decode d w ≠ none := by
  obtain ⟨m, v⟩ := r
  obtain rfl := rowMatches_iff.mp hm
  intro hnone
  simp only [decode_eq_none_iff, List.mem_cons, List.not_mem_nil, or_false] at hnone
  rcases opcodeRows_keys d _ hr with
    ⟨rfl, hw⟩ | ⟨rfl, hop⟩ | ⟨rfl, hop, hn⟩ | ⟨rfl, hop, hn⟩ | ⟨rfl, hop, hnn⟩ | ⟨rfl, hop, hnn⟩
  · rw [show w &&& 0xFFFF = w from BitVec.and_allOnes] at hw
    simp only [List.mem_cons, List.not_mem_nil, or_false] at hw
    rcases hw with rfl | rfl <;> simp at hnone
  · rw [opField_and_F000] at hop
    simp [opField_eq_iff] at hop
    omega
  · cases d
    case highNibble =>
      rw [maskFor59, opField_and_F000] at hop
      simp [opField_eq_iff] at hop hnone
      omega
    case strict =>
      rw [maskFor59, opField_and_F00F] at hop
      rw [maskFor59, nNibble_and_F00F] at hn
      simp [opField_eq_iff, nNibble_eq_iff] at hop hn
      omega
  · rw [opField_and_F00F] at hop
    rw [nNibble_and_F00F] at hn
    simp [opField_eq_iff, nNibble_eq_iff] at hop hn
    omega
  · rw [opField_and_F0FF] at hop
    rw [nnField_and_F0FF] at hnn
    simp [opField_eq_iff, nnField_eq_iff] at hop hnn
    omega
  · rw [opField_and_F0FF] at hop
    rw [nnField_and_F0FF] at hnn
    simp [opField_eq_iff, nnField_eq_iff] at hop hnn
    omega

/-- No opcode can match both rows: they ask different values of a bit both masks keep. -/
def RowsDisjoint (r r' : Word × Word) : Prop := r.2 &&& r'.1 ≠ r'.2 &&& r.1

theorem opcodeRows_pairwise_disjoint (d : Decode59) : (opcodeRows d).Pairwise RowsDisjoint := by
  cases d <;> (unfold RowsDisjoint; decide)

theorem RowsDisjoint.not_matches {r r' : Word × Word} (h : RowsDisjoint r r') (hr : rowMatches w r = true) :
    rowMatches w r' ≠ true := by
  intro hr'
  rw [rowMatches_iff] at hr hr'
  apply h
  rw [← hr, ← hr', BitVec.and_assoc, BitVec.and_assoc, BitVec.and_comm r.1]

theorem length_filter_le_one {α : Type} {p : α → Bool} {l : List α}
    (h : l.Pairwise fun a b => p a = true → p b ≠ true) : (l.filter p).length ≤ 1 := by
  have hf : (l.filter p).Pairwise fun _ _ => False := List.pairwise_filter.mpr h
  rcases hl : l.filter p with _ | ⟨a, _ | ⟨b, t⟩⟩
  · exact Nat.zero_le 1
  · exact Nat.le_refl 1
  · rw [hl] at hf
    exact (List.rel_of_pairwise_cons hf List.mem_cons_self).elim

/-! ### The obligations -/

/-- Settles O1, by the families of the encodings. -/
theorem decodeOfEncode : Obligations.DecodeOfEncode := fun _ _ h => decode_encode h

/-- Settles O2, by the families of the decoder. -/
theorem encodeOfDecode : Obligations.EncodeOfDecode := fun _ _ _ h => encodes_of_decode h

/-- Settles O3: an opcode that decodes is the encoding of an instruction, so it matches that instruction's row; two rows
differ in a bit that both masks keep. -/
theorem oneRowMatchesEachOpcode : Obligations.OneRowMatchesEachOpcode := by
  intro d w
  have own_row : ∀ ins, decode d w = some ins →
      ∃ r, (opcodeRows d)[ins.rowIndex]? = some r ∧ rowMatches w r = true := fun ins h => by
    obtain ⟨rfl, hwf⟩ := encodes_of_decode h
    exact encode_matches_own_row hwf
  refine ⟨⟨fun hnone r hr => ?_, fun hrows => ?_⟩, own_row, ?_⟩
  · exact Bool.eq_false_iff.mpr fun hm => decode_ne_none_of_rowMatches hr hm hnone
  · refine Option.eq_none_iff_forall_ne_some.mpr fun ins h => ?_
    obtain ⟨r, hr, hm⟩ := own_row ins h
    exact Bool.false_ne_true ((hrows r (List.mem_of_getElem? hr)).symm.trans hm)
  · exact length_filter_le_one ((opcodeRows_pairwise_disjoint d).imp RowsDisjoint.not_matches)

/-- Settles O4, by the families of the decoder; `strict` adds the last line of `decode_eq_none_iff`. -/
theorem unknownOpcodesAreExactlyR77 : Obligations.UnknownOpcodesAreExactlyR77 := by
  intro w
  simp only [decode_eq_none_iff, reduceCtorEq, false_and, or_false, true_and, or_assoc]

/-- Settles O5, by running the decoder. -/
theorem tableWordsDecode : Obligations.TableWordsDecode := by
  unfold Obligations.TableWordsDecode
  decide

end Sys2Proof
end

section
/-! PROOFS. The statements of 40_cycle.md: what a cycle does once its fetch does not fault, what the moves of the other
agents do, and that no step leaves a final mode. -/

namespace Sys2Proof.Machine

/-! ### The cycle -/

/-- A core step at a state ready to fetch executes the instruction the opcode at PC decodes to (40_cycle.md R92, R93). -/
theorem step_of_decode {s : State} {rest : List Move} {ins : Instr} (h : readyToFetch s rest)
    (hd : decode s.params.decode59 (fetchedOpcode s) = some ins) : step s = exec ins (s.fetched rest) := by
  obtain ⟨hr, hn, aligned⟩ := h
  have hodd : ¬ (s.params.oddPc = .fault ∧ s.pc.toNat % 2 = 1) := fun ⟨hp, ho⟩ => by simp [aligned hp] at ho
  rw [step_cycle hn hr, if_neg hodd, hd]

/-- A jump to the address the cycle started at undoes the fetch's advance of PC (40_cycle.md R105). -/
theorem State.setPc_fetched {s : State} {w : Word} (rest : List Move) (h : w = s.pc) :
    (s.fetched rest).setPc w = { s with fbDirty := false, schedule := rest } := by
  rw [h]
  rfl

/-! ### The timers -/

/-- The natural subtraction stops at 0, as a timer does (40_cycle.md R99). -/
theorem countDown_toNat (b : Byte) : (countDown b).toNat = b.toNat - 1 := by
  unfold countDown
  split
  case isTrue hb => rw [hb]; rfl
  case isFalse => bv_omega

theorem unchangedOutside_tick {f : Footprint} (s : State) (hdt : f.dt = true) (hst : f.st = true) :
    unchangedOutside f s s.tick := (unchangedOutside_setDt _ hdt).trans (unchangedOutside_setSt _ hst)

theorem soundActive_tick (s : State) : s.tick.soundActive = decide (1 < s.st.toNat) := by
  have hst : s.tick.st.toNat = s.st.toNat - 1 := countDown_toNat s.st
  rw [State.soundActive, hst, decide_eq_decide]
  omega

/-! ### The final modes -/

theorem step_of_halted {s : State} {c : Cause} (h : s.mode = .halted c) : step s = .fault (.halted c) := by
  simp only [step, State.turn, h]

theorem step_of_terminated {s : State} (h : s.mode = .terminated) : step s = .fault .terminated := by
  simp only [step, State.turn, h]

/-! ### The obligations -/

/-- Settles O26, by the frame rules of the state operations. -/
theorem instructionsStayInFootprint : Obligations.InstructionsStayInFootprint :=
  fun _ _ _ h => exec_unchangedOutside h

/-- Settles O9: a tick writes the two timers, each counted down. -/
theorem tickDecrementsTimers : Obligations.TickDecrementsTimers := by
  intro s rest hl hs
  exact ⟨_, step_move hl hs, countDown_toNat s.dt, countDown_toNat s.st, soundActive_tick (s.setSchedule rest),
    unchangedOutside_tick (s.setSchedule rest) rfl rfl⟩

/-- Settles O14: the jump writes back the PC the fetch advanced. -/
theorem selfLoopChangesNothingButDirty : Obligations.SelfLoopChangesNothingButDirty := by
  intro s rest nnn hready hd hnnn
  have htarget : zextNnn nnn = s.pc := BitVec.eq_of_toNat_eq ((zextNnn_toNat nnn).trans hnnn)
  calc step s
    _ = exec (.jp nnn) (s.fetched rest) := step_of_decode hready hd
    _ = .next ((s.fetched rest).setPc (zextNnn nnn)) := rfl
    _ = .next { s with fbDirty := false, schedule := rest } := by rw [State.setPc_fetched rest htarget]

/-- Settles O6: `State.fetched` is the state the statement writes out. -/
theorem stepRunsDecodedInstruction : Obligations.StepRunsDecodedInstruction :=
  fun _ _ _ hready hd => step_of_decode hready hd

/-- Settles O10, by the move that heads the schedule. -/
theorem keypadAndCancelMoves : Obligations.KeypadAndCancelMoves :=
  fun _ _ hl => ⟨fun _ hs => step_move hl hs, fun hs => step_move hl hs⟩

/-- Settles O11: only a live state has a next state, and each final mode answers its own fault. -/
theorem finalModesHaveNoStep : Obligations.FinalModesHaveNoStep :=
  fun _ hl => ⟨fun _ h => hl (live_of_step h), fun _ hm => step_of_halted hm, fun hm => step_of_terminated hm⟩

end Sys2Proof.Machine
end

section
/-! PROOFS. The statements of 41_display.md: what CLS and DRW do to every pixel, when DRW reports a collision, and that the
second of two draws of one sprite meets the pixels the first one left. -/

namespace Sys2Proof.Machine

/-! ### The collision flag -/

theorem flagByte_eq_one_iff (b : Bool) : flagByte b = 1 ↔ b = true := by cases b <;> decide

theorem flagByte_eq_zero_iff (b : Bool) : flagByte b = 0 ↔ b = false := by cases b <;> decide

/-! ### What DRW does -/

section Draw

variable {x y : RegIdx} {n : Fin 16} {s t : State}

/-- DRW toggles a pixel exactly if a set bit of the sprite lands on it (41_display.md R111). -/
theorem exec_drw_pixel (h : exec (.drw x y n) s = .next t) (r c : Nat) :
    t.pixel r c = true ↔ ¬ (s.pixel r c = true ↔ spriteSets s x y n r c) := by
  cases h
  rw [State.pixel_setDirty, State.pixel_setV, State.pixel_setFb, State.pixel_drawSprite, ← rowsHit_iff_spriteSets,
    Bool.xor_iff_ne, ne_eq, Bool.eq_iff_iff]

/-- DRW reports a collision exactly if a set bit lands on a set pixel (41_display.md R113). -/
theorem exec_drw_vf_eq_one_iff (h : exec (.drw x y n) s = .next t) :
    t.getV vf = 1 ↔ ∃ r c, spriteSets s x y n r c ∧ s.pixel r c = true := by
  cases h
  rw [State.getV_setDirty, State.getV_setV_same, flagByte_eq_one_iff, State.collided_drawSprite]

/-- DRW clears VF exactly if every set bit lands on a clear pixel (41_display.md R113). -/
theorem exec_drw_vf_eq_zero_iff (h : exec (.drw x y n) s = .next t) :
    t.getV vf = 0 ↔ ∀ r c, spriteSets s x y n r c → s.pixel r c = false := by
  cases h
  rw [State.getV_setDirty, State.getV_setV_same, flagByte_eq_zero_iff, ← Bool.not_eq_true, State.collided_drawSprite]
  simp

/-- A sprite is what the coordinate registers, I and memory hold: a frame without them keeps it. -/
theorem spriteSets_of_unchangedOutside {f : Footprint} (h : unchangedOutside f s t) (hx : x ∉ f.v) (hy : y ∉ f.v)
    (hi : f.i = false) (hmem : f.mem = []) (r c : Nat) : spriteSets t x y n r c ↔ spriteSets s x y n r c := by
  obtain ⟨tv, ti, -, -, -, -, -, tmem, -⟩ := h
  have hread : ∀ a, t.memRead a = s.memRead a := fun a => tmem a (hmem ▸ List.not_mem_nil)
  simp only [spriteSets, tv x hx, tv y hy, ti hi, hread]

/-- A draw with coordinates other than VF leaves its sprite where it was (41_display.md R111). -/
theorem exec_drw_spriteSets (h : exec (.drw x y n) s = .next t) (hx : x ≠ vf) (hy : y ≠ vf) (r c : Nat) :
    spriteSets t x y n r c ↔ spriteSets s x y n r c :=
  spriteSets_of_unchangedOutside (exec_unchangedOutside h) (List.mem_singleton.not.mpr hx)
    (List.mem_singleton.not.mpr hy) rfl rfl r c

end Draw

/-! ### The obligations -/

/-- Settles O33: the pixels by `exec_drw_pixel`, VF by the collision bit, the rest by the frame of DRW. -/
theorem drwXorsSpriteAndReportsCollision : Obligations.DrwXorsSpriteAndReportsCollision := by
  intro x y n s
  obtain ⟨t, ht, -⟩ := exec_effect (.drw x y n) s
  have hdirty : t.fbDirty = true := by cases ht; rfl
  exact ⟨t, ht, exec_drw_pixel ht, (exec_drw_vf_eq_one_iff ht).mpr, (exec_drw_vf_eq_zero_iff ht).mpr, hdirty,
    exec_unchangedOutside ht⟩

/-- Settles O34: the second draw toggles the same pixels again, and those it finds set were clear at the start. -/
theorem drwTwiceRestoresDisplay : Obligations.DrwTwiceRestoresDisplay := by
  intro x y n s hx hy
  obtain ⟨t, ht, -⟩ := exec_effect (.drw x y n) s
  obtain ⟨u, hu, -⟩ := exec_effect (.drw x y n) t
  have hsprite := exec_drw_spriteSets ht hx hy
  refine ⟨t, u, ht, hu, fun r c => ?_, ?_⟩
  · rw [Bool.eq_iff_iff, exec_drw_pixel hu, exec_drw_pixel ht, hsprite]
    tauto
  · rw [exec_drw_vf_eq_one_iff hu]
    refine exists₂_congr fun r c => ?_
    rw [hsprite]
    refine and_congr_right fun hset => ?_
    rw [exec_drw_pixel ht, iff_true_right hset, Bool.not_eq_true]

/-- Settles O32: a cleared framebuffer has no set pixel, and CLS writes nothing else but FB_DIRTY. -/
theorem clsClearsDisplay : Obligations.ClsClearsDisplay :=
  fun _ => ⟨_, rfl, Framebuffer.pixel_clear, rfl, exec_unchangedOutside (ins := .cls) rfl⟩

end Sys2Proof.Machine
end

section
/-! PROOFS. The statements of 42_control_flow.md: where the jumps land, when a skip instruction skips, how far one moves PC
over its whole cycle, and that RET undoes CALL. -/

namespace Sys2Proof.Machine

/-! ### Jumps -/

/-- The target of JP V0, nnn wraps at 12 bits; the 16-bit sum before the mask does not overflow (42_control_flow.md R127). -/
theorem mask12_zextNnn_add_toNat (nnn : BitVec 12) (b : Byte) :
    (mask12 (zextNnn nnn + zextByte b)).toNat = (nnn.toNat + b.toNat) % 4096 := by
  rw [mask12_toNat, BitVec.toNat_add, zextNnn_toNat, zextByte_toNat]
  exact Nat.mod_mod_of_dvd _ (by decide)

/-! ### Skips -/

/-- A skip adds 2 to PC when its condition holds, and changes nothing else (42_control_flow.md R128): `p` and `q` are the
forms in which an instruction states that the condition holds and that it fails. -/
theorem State.skipIf_spec (s : State) {c : Bool} {p q : Prop} (holds : p → c = true) (fails : q → c = false) :
    (p → (s.skipIf c).pc.toNat = (s.pc.toNat + 2) % 65536) ∧ (q → (s.skipIf c).pc = s.pc) ∧
      unchangedOutside { pc := true } s (s.skipIf c) := by
  refine ⟨fun hp => ?_, fun hq => ?_, unchangedOutside_skipIf c rfl⟩
  · rw [holds hp]
    exact BitVec.toNat_add s.pc 2
  · rw [fails hq]
    rfl

/-- Every skip instruction completes as a skip on some condition, or halts: SKP and SKNP with Vx > 15
(42_control_flow.md R128; 45_keys_timers.md R190, R191). -/
theorem exec_of_isSkip {ins : Instr} (s : State) (h : isSkip ins) :
    (∃ c, exec ins s = .next (s.skipIf c)) ∨ ∃ c, exec ins s = .next (s.setMode (.halted c)) := by
  rcases h with ⟨x, nn, rfl | rfl⟩ | ⟨x, y, n, rfl | rfl⟩ | ⟨x, rfl | rfl⟩
  case inl.inl | inl.inr => exact .inl ⟨_, rfl⟩
  case inr.inl.inl | inr.inl.inr => exact .inl ⟨_, rfl⟩
  case inr.inr.inl =>
    rcases Nat.lt_or_ge 15 (s.getV x).toNat with hx | hx
    · exact .inr ⟨_, exec_skp_of_gt s x hx⟩
    · exact .inl ⟨_, exec_skp_of_le s x hx⟩
  case inr.inr.inr =>
    rcases Nat.lt_or_ge 15 (s.getV x).toNat with hx | hx
    · exact .inr ⟨_, exec_sknp_of_gt s x hx⟩
    · exact .inl ⟨_, exec_sknp_of_le s x hx⟩

/-- Executing a skip instruction keeps PC or adds 2 to it. -/
theorem exec_pc_of_isSkip {ins : Instr} (s : State) (h : isSkip ins) :
    ∃ t, exec ins s = .next t ∧ (t.pc = s.pc ∨ t.pc = s.pc + 2) := by
  rcases exec_of_isSkip s h with ⟨c, hc⟩ | ⟨c, hc⟩
  · cases c with
    | false => exact ⟨_, hc, .inl rfl⟩
    | true => exact ⟨_, hc, .inr rfl⟩
  · exact ⟨_, hc, .inl rfl⟩

/-! ### The obligations -/

/-- Settles O15: the fetch adds 2 to PC, and executing the skip adds 0 or 2 more. -/
theorem skipCycleAdvancesTwoOrFour : Obligations.SkipCycleAdvancesTwoOrFour := by
  intro s rest ins hready hd hskip
  obtain ⟨t, ht, hpc⟩ := exec_pc_of_isSkip (s.fetched rest) hskip
  refine ⟨t, (step_of_decode hready hd).trans ht, hpc.imp (fun h => ?_) fun h => ?_⟩
  · calc t.pc.toNat
      _ = (s.pc + 2).toNat := congrArg BitVec.toNat h
      _ = (s.pc.toNat + 2) % 65536 := BitVec.toNat_add s.pc 2
  · calc t.pc.toNat
      _ = (s.pc + 2 + 2).toNat := congrArg BitVec.toNat h
      _ = (s.pc.toNat + 4) % 65536 := by rw [BitVec.add_assoc]; exact BitVec.toNat_add s.pc 4

/-- Settles O37: the entry RET pops is the one CALL pushed, at the depth CALL started from. -/
theorem retAfterCallReturns : Obligations.RetAfterCallReturns := by
  intro nnn s t u hsp hcall hstack hdepth
  obtain ⟨t', hcall', -, htsp, htstack, -⟩ := (callPushesAndJumps nnn s).1 hsp
  obtain rfl : t = t' := by simpa [hcall] using hcall'
  have husp : u.sp.val = s.sp.val + 1 := hdepth ▸ htsp
  obtain ⟨w, hret, hwpc, hwsp, -⟩ := (retPopsReturnAddress u).1 (by omega)
  have htop : u.stack[s.sp.val] = s.pc := by rw [hstack, htstack _ hsp, if_pos rfl]
  refine ⟨w, hret, ?_, Fin.ext ?_⟩
  · simpa only [husp, Nat.add_sub_cancel, htop] using hwpc
  · rw [hwsp, husp, Nat.add_sub_cancel]

/-- Settles O38: each jump writes its target to PC and nothing else. -/
theorem jumpsSetPc : Obligations.JumpsSetPc := fun nnn s =>
  ⟨⟨_, rfl, zextNnn_toNat nnn, unchangedOutside_setPc _ rfl⟩,
    ⟨_, rfl, mask12_zextNnn_add_toNat nnn (s.getV 0), unchangedOutside_setPc _ rfl⟩⟩

/-- Settles O39: SE skips on `==`, SNE on `!=`. -/
theorem byteSkipsCompare : Obligations.ByteSkipsCompare := fun _ _ s =>
  ⟨⟨_, rfl, s.skipIf_spec beq_iff_eq.mpr beq_eq_false_iff_ne.mpr⟩,
    ⟨_, rfl, s.skipIf_spec bne_iff_ne.mpr bne_eq_false_iff_eq.mpr⟩⟩

/-- Settles O40: SE skips on `==`, SNE on `!=`, whatever the n nibble. -/
theorem registerSkipsCompare : Obligations.RegisterSkipsCompare := fun _ _ _ s =>
  ⟨⟨_, rfl, s.skipIf_spec beq_iff_eq.mpr beq_eq_false_iff_ne.mpr⟩,
    ⟨_, rfl, s.skipIf_spec bne_iff_ne.mpr bne_eq_false_iff_eq.mpr⟩⟩

end Sys2Proof.Machine
end

section
/-! PROOFS. The statements of 43_alu.md: what the two writes of a flag instruction leave in Vx and in VF under each
P_VF_ORDER, the flags and results as arithmetic, and one register write for the instructions without a flag. -/

namespace Sys2Proof.Machine

/-! ### Flags and results as arithmetic -/

/-- The difference mod 256, without a negative number (43_alu.md R148, R150). -/
theorem byte_sub_toNat (a b : Byte) : (a - b).toNat = (a.toNat + 256 - b.toNat) % 256 := by
  have hb := b.isLt
  rw [BitVec.toNat_sub]
  omega

/-- No byte is greater than itself: SUB and SUBN of VF with itself clear VF (43_alu.md R140). -/
theorem noBorrowFlag_self (b : Byte) : noBorrowFlag b b = 0 := by
  rw [noBorrowFlag, decide_eq_false (Nat.lt_irrefl _)]
  rfl

/-- A bit of a byte as a flag (43_alu.md R149, R151). -/
theorem flagByte_getLsbD_toNat (b : Byte) (k : Nat) : (flagByte (b.getLsbD k)).toNat = b.toNat / 2 ^ k % 2 := by
  have hflag : ∀ c : Bool, (flagByte c).toNat = c.toNat := by decide
  exact (hflag _).trans (Nat.toNat_testBit b.toNat k)

theorem lowBitFlag_toNat (b : Byte) : (lowBitFlag b).toNat = b.toNat % 2 := by
  rw [lowBitFlag, flagByte_getLsbD_toNat, Nat.pow_zero, Nat.div_one]

theorem highBitFlag_toNat (b : Byte) : (highBitFlag b).toNat = b.toNat / 128 := by
  have hb := b.isLt
  rw [highBitFlag, flagByte_getLsbD_toNat]
  omega

theorem lowBitFlag_eq_and_one (b : Byte) : lowBitFlag b = b &&& 1 :=
  BitVec.eq_of_toNat_eq ((lowBitFlag_toNat b).trans (Nat.and_one_is_mod b.toNat).symm)

theorem highBitFlag_eq_shiftRight (b : Byte) : highBitFlag b = b >>> 7 :=
  BitVec.eq_of_toNat_eq ((highBitFlag_toNat b).trans (Nat.shiftRight_eq_div_pow b.toNat 7).symm)

/-- SHR shifts a 0 in: the bit shifted out, shifted once more, is gone (43_alu.md R140). -/
theorem lowBitFlag_shiftRight_one (b : Byte) : lowBitFlag b >>> 1 = 0 := by
  refine BitVec.eq_of_toNat_eq ?_
  rw [BitVec.toNat_ushiftRight, lowBitFlag_toNat, Nat.shiftRight_eq_div_pow]
  exact Nat.div_eq_of_lt (Nat.mod_lt _ (by decide))

theorem byte_shiftLeft_one_toNat (b : Byte) : (b <<< 1).toNat = b.toNat * 2 % 256 := by
  rw [BitVec.toNat_shiftLeft, Nat.shiftLeft_eq]

/-! ### One register write -/

/-- A write of a byte with the bits `g`, and nothing else. -/
theorem State.setV_bits (s : State) (x : RegIdx) {b : Byte} {g : Nat → Bool} (h : ∀ k, b.getLsbD k = g k) :
    (∀ k < 8, ((s.setV x b).getV x).getLsbD k = g k) ∧ unchangedOutside { v := [x] } s (s.setV x b) :=
  ⟨fun k _ => (congrArg (BitVec.getLsbD · k) (s.getV_setV_same x b)).trans (h k),
    unchangedOutside_setV b List.mem_cons_self⟩

/-! ### The two writes of a flag instruction (43_alu.md R140) -/

/-- ADD writes VF last, so that VF holds the flag for every x (43_alu.md R147). -/
theorem State.resultThenFlag_vf (s : State) (x : RegIdx) (result flag : Byte) :
    (s.resultThenFlag x result flag).getV vf = flag := State.getV_setV_same _ vf flag

section FlagAndResult

variable (s : State) (flag result : Byte → Byte → Byte) {x y : RegIdx}

/-- With VF neither operand no order reads or overwrites the other write. -/
theorem State.flagAndResult_spec (h : s.params.vfOrder = .latchedTableOrder ∨ (x ≠ vf ∧ y ≠ vf)) :
    (s.flagAndResult flag result x y).getV x = result (s.getV x) (s.getV y) ∧
    (x ≠ vf → (s.flagAndResult flag result x y).getV vf = flag (s.getV x) (s.getV y)) := by
  simp only [State.getV_flagAndResult]
  rcases h with horder | ⟨hx, hy⟩
  · simp only [horder, if_true]
    exact ⟨trivial, fun hx => if_neg hx.symm⟩
  · cases s.params.vfOrder <;> simp [hx, hy, hx.symm]

/-- VF as destination; `b` is the second operand read again after VF was written. -/
theorem State.flagAndResult_vf_dest {b : Byte} (hb : (if y = vf then flag (s.getV vf) (s.getV y) else s.getV y) = b) :
    (s.params.vfOrder = .latchedTableOrder →
      (s.flagAndResult flag result vf y).getV vf = result (s.getV vf) (s.getV y)) ∧
    (s.params.vfOrder = .latchedFlagLast →
      (s.flagAndResult flag result vf y).getV vf = flag (s.getV vf) (s.getV y)) ∧
    (s.params.vfOrder = .sequentialReread →
      (s.flagAndResult flag result vf y).getV vf = result (flag (s.getV vf) (s.getV y)) b) := by
  subst hb
  simp only [State.getV_flagAndResult]
  refine ⟨fun horder => ?_, fun horder => ?_, fun horder => ?_⟩ <;> simp only [horder, if_true]

/-- VF as the second operand only. -/
theorem State.flagAndResult_vf_source (hx : x ≠ vf) :
    (s.flagAndResult flag result x vf).getV vf = flag (s.getV x) (s.getV vf) ∧
    (s.params.vfOrder ≠ .sequentialReread →
      (s.flagAndResult flag result x vf).getV x = result (s.getV x) (s.getV vf)) ∧
    (s.params.vfOrder = .sequentialReread →
      (s.flagAndResult flag result x vf).getV x = result (s.getV x) (flag (s.getV x) (s.getV vf))) := by
  simp only [State.getV_flagAndResult]
  cases s.params.vfOrder <;> simp [hx, hx.symm]

/-- VF as both operands: zero if equal operands give a zero flag and a zero result. -/
theorem State.flagAndResult_vf_vf (hflag : ∀ b, flag b b = 0) (hresult : ∀ b, result b b = 0) :
    (s.flagAndResult flag result vf vf).getV vf = 0 := by
  rw [State.getV_flagAndResult]
  cases s.params.vfOrder <;> simp only [if_true, hflag, hresult]

end FlagAndResult

/-! ### The obligations -/

/-- Settles O43: VF is written last, so it holds the carry whatever x is. -/
theorem addSetsSumAndCarry : Obligations.AddSetsSumAndCarry := by
  intro x y s
  refine ⟨_, rfl, s.resultThenFlag_vf x _ _, fun hx => ?_, exec_unchangedOutside (ins := .addReg x y) rfl⟩
  rw [State.getV_resultThenFlag, if_neg hx, if_pos rfl, BitVec.toNat_add]

/-- Settles O44, by the two writes where no order makes a difference. -/
theorem subSetsDifferenceAndNoBorrow : Obligations.SubSetsDifferenceAndNoBorrow := by
  intro x y s
  refine ⟨_, rfl, fun h => ?_, exec_unchangedOutside (ins := .subReg x y) rfl⟩
  obtain ⟨hvx, hvf⟩ := s.flagAndResult_spec (fun vx vy => noBorrowFlag vx vy) (fun vx vy => vx - vy) h
  exact ⟨(congrArg BitVec.toNat hvx).trans (byte_sub_toNat _ _), hvf⟩

/-- Settles O45, as O44 with the operands exchanged. -/
theorem subnSetsDifferenceAndNoBorrow : Obligations.SubnSetsDifferenceAndNoBorrow := by
  intro x y s
  refine ⟨_, rfl, fun h => ?_, exec_unchangedOutside (ins := .subnReg x y) rfl⟩
  obtain ⟨hvx, hvf⟩ := s.flagAndResult_spec (fun vx vy => noBorrowFlag vy vx) (fun vx vy => vy - vx) h
  exact ⟨(congrArg BitVec.toNat hvx).trans (byte_sub_toNat _ _), hvf⟩

/-- Settles O46: Vx is both operands of the two writes, and the results are read as arithmetic. -/
theorem shiftsSetResultAndBitOut : Obligations.ShiftsSetResultAndBitOut := by
  intro x y s
  constructor
  · refine ⟨_, rfl, fun h => ?_, exec_unchangedOutside (ins := .shr x y) rfl⟩
    obtain ⟨hvx, hvf⟩ := s.flagAndResult_spec (fun vx _ => lowBitFlag vx) (fun vx _ => vx >>> 1)
      (h.imp_right fun hx => ⟨hx, hx⟩)
    exact ⟨(congrArg BitVec.toNat hvx).trans (Nat.shiftRight_eq_div_pow _ 1),
      fun hx => (congrArg BitVec.toNat (hvf hx)).trans (lowBitFlag_toNat _)⟩
  · refine ⟨_, rfl, fun h => ?_, exec_unchangedOutside (ins := .shl x y) rfl⟩
    obtain ⟨hvx, hvf⟩ := s.flagAndResult_spec (fun vx _ => highBitFlag vx) (fun vx _ => vx <<< 1)
      (h.imp_right fun hx => ⟨hx, hx⟩)
    exact ⟨(congrArg BitVec.toNat hvx).trans (byte_shiftLeft_one_toNat _),
      fun hx => (congrArg BitVec.toNat (hvf hx)).trans (highBitFlag_toNat _)⟩

/-- Settles O47, row by row: VF as destination, as second operand, or as both. -/
theorem vfOperandTable : Obligations.VfOperandTable := by
  intro x y n s hx hy f a b
  refine ⟨⟨_, rfl, s.resultThenFlag_vf vf _ _⟩, ⟨_, rfl, ?sub_dest⟩, ⟨_, rfl, ?sub_source⟩, ⟨_, rfl, ?sub_both⟩,
    ⟨_, rfl, ?shr⟩, ⟨_, rfl, ?subn_dest⟩, ⟨_, rfl, ?subn_source⟩, ⟨_, rfl, ?subn_both⟩, ⟨_, rfl, ?shl⟩⟩
  case sub_dest | subn_dest => exact s.flagAndResult_vf_dest _ _ (if_neg hy)
  case sub_source | subn_source => exact s.flagAndResult_vf_source _ _ hx
  case sub_both | subn_both => exact s.flagAndResult_vf_vf _ _ noBorrowFlag_self BitVec.sub_self
  case shr =>
    obtain ⟨htable, hlast, hreread⟩ :=
      s.flagAndResult_vf_dest (fun vx _ => lowBitFlag vx) (fun vx _ => vx >>> 1) (if_pos rfl)
    exact ⟨htable, fun h => (hlast h).trans (lowBitFlag_eq_and_one f),
      fun h => (hreread h).trans (lowBitFlag_shiftRight_one f)⟩
  case shl =>
    obtain ⟨htable, hlast, hreread⟩ :=
      s.flagAndResult_vf_dest (fun vx _ => highBitFlag vx) (fun vx _ => vx <<< 1) (if_pos rfl)
    exact ⟨htable, fun h => (hlast h).trans (highBitFlag_eq_shiftRight f),
      fun h => (hreread h).trans (congrArg (fun b : Byte => b <<< 1) (highBitFlag_eq_shiftRight f))⟩

/-- Settles O41, by one register write each. -/
theorem loadsAndByteAdd : Obligations.LoadsAndByteAdd := fun x _ nn s =>
  ⟨⟨_, rfl, s.getV_setV_same x nn, unchangedOutside_setV _ List.mem_cons_self⟩,
    ⟨_, rfl, (congrArg BitVec.toNat (s.getV_setV_same x _)).trans (BitVec.toNat_add _ _),
      unchangedOutside_setV _ List.mem_cons_self⟩,
    ⟨_, rfl, s.getV_setV_same x _, unchangedOutside_setV _ List.mem_cons_self⟩⟩

/-- Settles O42, by one register write each. -/
theorem logicIsBitwise : Obligations.LogicIsBitwise := fun x _ s =>
  ⟨⟨_, rfl, s.setV_bits x fun _ => BitVec.getLsbD_or⟩, ⟨_, rfl, s.setV_bits x fun _ => BitVec.getLsbD_and⟩,
    ⟨_, rfl, s.setV_bits x fun _ => BitVec.getLsbD_xor⟩⟩

/-- Settles O48: the byte drawn is the one the count of draws names, and the count goes up by one. -/
theorem rndStoresMaskedFreeByte : Obligations.RndStoresMaskedFreeByte := fun x nn s =>
  ⟨_, rfl, s.getV_setV_same x _, rfl, exec_unchangedOutside (ins := .rnd x nn) rfl⟩

end Sys2Proof.Machine
end

section
/-! PROOFS. The statements of 44_index_memory.md: the values written to I as arithmetic, what P_LDST_I leaves in I, and for
each store at I its two sides, allowed and refused. -/

namespace Sys2Proof.Machine

/-! ### Writes of I -/

/-- ADD I, Vx wraps at 12 bits, whatever bits 15:12 of I held (44_index_memory.md R171). -/
theorem mask12_add_zextByte_toNat (w : Word) (b : Byte) :
    (mask12 (w + zextByte b)).toNat = (w.toNat + b.toNat) % 4096 := by
  rw [mask12_toNat, BitVec.toNat_add, zextByte_toNat]
  exact Nat.mod_mod_of_dvd _ (by decide)

/-- The glyph address needs no masking: 5 * 255 lies below 0x1000 (44_index_memory.md R172). -/
theorem mask12_glyphAddr_toNat (b : Byte) : (mask12 (glyphAddr b)).toNat = b.toNat * 5 := by
  have hb : b.toNat < 256 := b.isLt
  have hprod : (glyphAddr b).toNat = b.toNat * 5 % 65536 := by
    rw [glyphAddr, BitVec.toNat_mul, zextByte_toNat]
    rfl
  rw [mask12_toNat, hprod]
  omega

/-- I after Fx55 and Fx65, for a state `t` in which the transfer is done and I still holds its value from `s`
(44_index_memory.md R176). -/
theorem State.advanceI_spec {s t : State} (hi : t.i = s.i) (hp : t.params = s.params) (x : RegIdx) :
    (s.params.ldstI = .unchanged → (t.advanceI s.i x).i = s.i) ∧
    (s.params.ldstI = .increment → (t.advanceI s.i x).i.toNat = (s.i.toNat + x.val + 1) % 4096) := by
  have hx := x.isLt
  rw [State.advanceI_eq, hp, hi]
  refine ⟨fun h => ?_, fun h => ?_⟩
  · exact if_neg (by rw [h]; decide)
  · rw [if_pos h, mask12_toNat, BitVec.toNat_add, BitVec.toNat_ofNat]
    omega

/-! ### Stores at I, where no address is refused -/

/-- LD B stores its three digits and changes nothing else (44_index_memory.md R173). -/
theorem exec_ldB_of_allowed (s : State) (x : RegIdx) (h : storeAllowed s 3) :
    ∃ t, exec (.ldB x) s = .next t ∧
      (∀ k, (hk : k < 3) →
        t.memRead (byteAddr s.i k) = storedByte s (byteAddr s.i k) (decimalDigits (s.getV x))[k]) ∧
      unchangedOutside { mem := addrsFrom s.i 3 } s t := by
  obtain ⟨t, ht, honly, hin, hout⟩ := s.storeBytes_allowed (decimalDigits (s.getV x)) (show 3 ≤ 4096 by decide) h
  exact ⟨t, exec_ldB_of_ok s ht, hin, unchangedOutside_of_onlyMemory honly hout⟩

/-! ### Stores at I, refused at the first protected address -/

theorem exec_ldB_of_refused (s : State) (x : RegIdx) {a : Nat} (hp : s.params.lowWrite = .fault)
    (h : firstProtected s 3 a) :
    exec (.ldB x) s = .next (s.setMode (.halted (.protectedWrite (s.pc - 2) a))) :=
  exec_ldB_of_error s (s.storeBytes_refused (decimalDigits (s.getV x)) a hp h)

theorem exec_storeRegs_of_refused (s : State) (x : RegIdx) {a : Nat} (hp : s.params.lowWrite = .fault)
    (h : firstProtected s (x.val + 1) a) :
    exec (.storeRegs x) s = .next (s.setMode (.halted (.protectedWrite (s.pc - 2) a))) :=
  exec_storeRegs_of_error s (s.storeBytes_refused (regsThrough x s) a hp (by rwa [regsThrough_length]))

/-! ### The obligations -/

/-- Settles O50: on the allowed side the digits are the bytes stored, on the refused side only MODE changes. -/
theorem bcdStoresDecimalDigits : Obligations.BcdStoresDecimalDigits := by
  refine fun x s => ⟨fun hallowed => ?_, fun a hp ha => ?_⟩
  · obtain ⟨t, ht, hdigits, hframe⟩ := exec_ldB_of_allowed s x hallowed
    exact ⟨t, ht, ⟨hdigits 0 (by decide), hdigits 1 (by decide), hdigits 2 (by decide)⟩, hframe⟩
  · exact ⟨_, exec_ldB_of_refused s x hp ha, rfl, fun _ => rfl⟩

/-- Settles O51: on the allowed side the store changes memory alone and P_LDST_I changes I alone, on the refused side only
MODE changes. -/
theorem storeRegistersStoresV0ToVx : Obligations.StoreRegistersStoresV0ToVx := by
  refine fun x s => ⟨fun hallowed => ?_, fun a hp ha => ?_⟩
  · obtain ⟨u, hu, honly, hin⟩ := exec_storeRegs_of_allowed s x hallowed
    obtain ⟨-, -, -, -, -, -, -, hout, -⟩ := exec_unchangedOutside hu
    have hstore : unchangedOutside { mem := addrsFrom s.i (x.val + 1), i := true } s u :=
      unchangedOutside_of_onlyMemory honly fun b hb => (u.memRead_advanceI s.i x b).symm.trans (hout b hb)
    have hi : u.i = s.i := by rw [honly.frame]
    obtain ⟨hunchanged, hincrement⟩ := State.advanceI_spec hi honly.params x
    exact ⟨_, hu, fun k hk => (u.memRead_advanceI s.i x _).trans (hin k hk), hunchanged, hincrement,
      hstore.trans (unchangedOutside_advanceI _ x fun _ => rfl)⟩
  · exact ⟨_, exec_storeRegs_of_refused s x hp ha, rfl, fun _ => rfl⟩

/-- Settles O52: the load changes V alone, and P_LDST_I changes I alone. -/
theorem loadRegistersLoadsV0ToVx : Obligations.LoadRegistersLoadsV0ToVx := by
  intro x s
  obtain ⟨honlyV, hread⟩ := s.loadV_spec s.i x.val x.isLt
  have hi : (s.loadV s.i x.val).i = s.i := by rw [honlyV]
  have hparams : (s.loadV s.i x.val).params = s.params := by rw [honlyV]
  obtain ⟨hunchanged, hincrement⟩ := State.advanceI_spec hi hparams x
  have hload : unchangedOutside { v := regsUpTo x, i := true } s (s.loadV s.i x.val) :=
    unchangedOutside_loadV _ x fun j hj => List.mem_filter.mpr ⟨List.mem_finRange j, decide_eq_true hj⟩
  refine ⟨_, rfl, fun k hk => ?_, hunchanged, hincrement, hload.trans (unchangedOutside_advanceI _ x fun _ => rfl)⟩
  rw [State.advanceI_eq]
  exact (hread k).trans (if_pos hk)

/-- Settles O49: each writes the masked value to I and nothing else. -/
theorem indexWritesAreMasked : Obligations.IndexWritesAreMasked := by
  refine fun nnn x s => ⟨⟨_, rfl, ?_, unchangedOutside_setI _ rfl⟩,
    ⟨_, rfl, mask12_add_zextByte_toNat s.i (s.getV x), unchangedOutside_setI _ rfl⟩,
    ⟨_, rfl, mask12_glyphAddr_toNat (s.getV x), unchangedOutside_setI _ rfl⟩⟩
  calc (mask12 (zextNnn nnn)).toNat
    _ = nnn.toNat % 4096 := by rw [mask12_toNat, zextNnn_toNat]
    _ = nnn.toNat := Nat.mod_eq_of_lt nnn.isLt

end Sys2Proof.Machine
end

section
/-! PROOFS. The statements of 45_keys_timers.md: what a wait step does with no and with some newly pressed key, the key
skips by the state of key Vx, and the copies between Vx and the timers. -/

namespace Sys2Proof.Machine

/-! ### The key wait -/

/-- A key index fits in a byte, so the register reads back as the key (45_keys_timers.md R195). -/
theorem keyByte_toNat (k : RegIdx) : (keyByte k).toNat = k.val := by
  have hk := k.isLt
  rw [keyByte, BitVec.toNat_ofNat]
  omega

theorem State.getV_endWait_toNat (s : State) (x k : RegIdx) : ((s.endWait x k).getV x).toNat = k.val :=
  (congrArg BitVec.toNat (s.getV_setV_same x (keyByte k))).trans (keyByte_toNat k)

theorem unchangedOutside_endWait {f : Footprint} (s : State) {x : RegIdx} (k : RegIdx) (hx : x ∈ f.v)
    (hmode : f.mode = true) : unchangedOutside f s (s.endWait x k) :=
  (unchangedOutside_setV _ hx).trans (unchangedOutside_setMode _ hmode)

/-- A keypad sample without a newly pressed key becomes the one the next sample is compared with
(45_keys_timers.md R195). -/
theorem State.waitStep_of_no_key (s : State) (x : RegIdx) {prev : Word} (h : ∀ k, ¬ pressedSince prev s.key k) :
    s.waitStep x prev = s.setMode (.waitingForKey x s.key) := by
  rcases s.waitStep_cases x prev with ⟨-, hwait⟩ | ⟨k, hk, -⟩
  · exact hwait
  · exact absurd hk (h k)

/-- A keypad sample with a newly pressed key ends the wait with such a key; a draw is counted where there are several
(45_keys_timers.md R195; log 7). -/
theorem State.waitStep_of_key (s : State) (x : RegIdx) {prev : Word} (h : ∃ k, pressedSince prev s.key k) :
    ∃ k, pressedSince prev s.key k ∧
      (s.waitStep x prev = s.endWait x k ∨ s.waitStep x prev = (s.endWait x k).countDraw) := by
  rcases s.waitStep_cases x prev with ⟨hnone, -⟩ | hend
  · obtain ⟨k, hk⟩ := h
    exact absurd hk (hnone k)
  · exact hend

/-! ### The obligations -/

/-- Settles O12: the wait step without a newly pressed key. -/
theorem keyWaitGoesOnWithoutNewKey : Obligations.KeyWaitGoesOnWithoutNewKey := by
  intro s rest x prev hwaiting hnext hnone
  have hsample : (s.setSchedule rest).waitStep x prev = { s with mode := .waitingForKey x s.key, schedule := rest } :=
    (s.setSchedule rest).waitStep_of_no_key x hnone
  rw [step_waiting hnext hwaiting, hsample]

/-- Settles O13: the wait ends with one of the newly pressed keys, with or without a draw. -/
theorem keyWaitEndsWithNewKey : Obligations.KeyWaitEndsWithNewKey := by
  intro s rest x prev hwaiting hnext hsome
  have hstep := step_waiting hnext hwaiting
  obtain ⟨k, hk, hend⟩ := (s.setSchedule rest).waitStep_of_key x hsome
  have hvx := (s.setSchedule rest).getV_endWait_toNat x k
  have hframe : unchangedOutside { v := [x], mode := true, draws := true } (s.setSchedule rest)
      ((s.setSchedule rest).endWait x k) := unchangedOutside_endWait _ k List.mem_cons_self rfl
  rcases hend with hend | hend <;> rw [hend] at hstep
  · exact ⟨_, k, hstep, hk, hvx, rfl, rfl, hframe⟩
  · exact ⟨_, k, hstep, hk, hvx, rfl, rfl, hframe.trans (unchangedOutside_countDraw rfl)⟩

/-- Settles O54: SKP skips on a pressed key, SKNP on one that is not. -/
theorem keySkipsReadKeypad : Obligations.KeySkipsReadKeypad := fun x s hx =>
  ⟨⟨_, exec_skp_of_le s x hx, s.skipIf_spec beq_iff_eq.mpr fun h => by rw [h]; rfl⟩,
    ⟨_, exec_sknp_of_le s x hx, s.skipIf_spec beq_iff_eq.mpr fun h => by rw [h]; rfl⟩⟩

/-- Settles O56: each copies one byte, and SOUND_ACTIVE is read from ST. -/
theorem timerMovesCopy : Obligations.TimerMovesCopy := fun x s =>
  ⟨⟨_, rfl, s.getV_setV_same x s.dt, unchangedOutside_setV _ List.mem_cons_self⟩,
    ⟨_, rfl, rfl, unchangedOutside_setDt _ rfl⟩,
    ⟨_, rfl, rfl, rfl, unchangedOutside_setSt _ rfl⟩⟩

/-- Settles O57: LD Vx, K writes MODE alone. -/
theorem waitForKeySuspends : Obligations.WaitForKeySuspends :=
  fun _ _ => ⟨_, rfl, rfl, unchangedOutside_setMode _ rfl⟩

end Sys2Proof.Machine
end

section
/-! PROOFS. The statements of 60_exceptions.md: the two ways a cycle ends at its fetch, the refused load, the fault outputs
as a function of MODE, and the fatal causes of an instruction as one relation. -/

namespace Sys2Proof.Machine

/-! ### Cycles that end at the fetch, and the load that is refused -/

/-- A core step at a state ready to fetch an Unknown opcode logs it after the fetch, and executes nothing
(60_exceptions.md R214). -/
theorem step_of_unknown {s : State} {rest : List Move} (h : readyToFetch s rest)
    (hd : decode s.params.decode59 (fetchedOpcode s) = none) :
    step s = .next ((s.fetched rest).appendLog s.pc (fetchedOpcode s)) := by
  obtain ⟨hr, hn, aligned⟩ := h
  have hodd : ¬ (s.params.oddPc = .fault ∧ s.pc.toNat % 2 = 1) := fun ⟨hp, ho⟩ => by simp [aligned hp] at ho
  rw [step_cycle hn hr, if_neg hodd, hd]

theorem mode_boot_of_oversize (p : Params) {rom : List Byte} (h : 3584 < rom.length) :
    (State.boot p rom).mode = .halted (.invalidProgram rom.length) := by
  rw [State.boot_of_oversize p rom h]
  rfl

/-! ### The fault outputs (60_exceptions.md R210) -/

theorem faultCause_of_halted {s : State} {c : Cause} (h : s.mode = .halted c) : s.faultCause = c.code := by
  simp only [State.faultCause, h]

theorem faultCause_of_not_halted {s : State} (h : ∀ c, s.mode ≠ .halted c) : s.faultCause = 0 := by
  unfold State.faultCause
  cases hm : s.mode with
  | halted c => exact absurd hm (h c)
  | running | waitingForKey | terminated => rfl

/-- No fatal cause has the code of "no fault". -/
theorem Cause.code_ne_zero (c : Cause) : c.code ≠ 0 := by
  cases c <;> exact Nat.succ_ne_zero _

theorem faultAsserted_iff (s : State) : s.faultAsserted = true ↔ ∃ c, s.mode = .halted c := by
  rw [State.faultAsserted, bne_iff_ne]
  constructor
  · intro hcode
    by_contra hnone
    exact hcode (faultCause_of_not_halted fun c hc => hnone ⟨c, hc⟩)
  · rintro ⟨c, hc⟩
    exact faultCause_of_halted hc ▸ c.code_ne_zero

/-! ### The fatal causes of an instruction -/

/-- In state `s` the table of 60_exceptions.md R210 gives the instruction the fatal cause, with the value it records. -/
inductive FatalCause (s : State) : Instr → Cause → Prop where
  | call (nnn : BitVec 12) (full : s.sp.val = 16) : FatalCause s (.call nnn) (.stackOverflow s.instrAddr)
  | ret (empty : s.sp.val = 0) : FatalCause s .ret (.stackUnderflow s.instrAddr)
  | skp (x : RegIdx) (big : 15 < (s.getV x).toNat) : FatalCause s (.skp x) (.keyIndexOutOfRange s.instrAddr (s.getV x))
  | sknp (x : RegIdx) (big : 15 < (s.getV x).toNat) :
      FatalCause s (.sknp x) (.keyIndexOutOfRange s.instrAddr (s.getV x))
  | ldB (x : RegIdx) {a : Nat} (policy : s.params.lowWrite = .fault) (low : firstProtected s 3 a) :
      FatalCause s (.ldB x) (.protectedWrite s.instrAddr a)
  | storeRegs (x : RegIdx) {a : Nat} (policy : s.params.lowWrite = .fault) (low : firstProtected s (x.val + 1) a) :
      FatalCause s (.storeRegs x) (.protectedWrite s.instrAddr a)

theorem exec_mode_of_footprint {ins : Instr} {s t : State} (h : exec ins s = .next t)
    (hf : (footprint ins s).mode = false) : t.mode = s.mode := by
  obtain ⟨-, -, -, -, -, -, -, -, -, hmode, -⟩ := exec_unchangedOutside h
  exact hmode hf

theorem live_not_halted {s : State} (h : s.live) (c : Cause) : s.mode ≠ .halted c := by
  rcases h with hm | ⟨x, prev, hm⟩ <;> rw [hm] <;> exact nofun

/-- An instruction that halts a live machine takes one of its causes in the table, and writes MODE alone
(60_exceptions.md R210, R219; log 9). -/
theorem fatalCause_of_exec_halted {ins : Instr} {s t : State} {c : Cause} (h : exec ins s = .next t) (hl : s.live)
    (hc : t.mode = .halted c) : t = s.setMode (.halted c) ∧ FatalCause s ins c := by
  have completes : ∀ u, exec ins s = .next u → u.mode = s.mode → t = s.setMode (.halted c) ∧ FatalCause s ins c := by
    intro u hu hmode
    rw [hu] at h
    cases h
    exact absurd (hmode.symm.trans hc) (live_not_halted hl c)
  have halts : ∀ c', exec ins s = .next (s.setMode (.halted c')) → FatalCause s ins c' →
      t = s.setMode (.halted c) ∧ FatalCause s ins c := by
    intro c' hu hfatal
    rw [hu] at h
    cases h
    cases hc
    exact ⟨rfl, hfatal⟩
  cases ins
  case call nnn =>
    by_cases hsp : s.sp.val < 16
    · exact completes _ (exec_call_of_lt s nnn hsp) rfl
    · have full : s.sp.val = 16 := by omega
      exact halts _ (exec_call_of_full s nnn full) (.call nnn full)
  case ret =>
    by_cases hsp : 0 < s.sp.val
    · exact completes _ (exec_ret_of_pos s hsp) rfl
    · have empty : s.sp.val = 0 := by omega
      exact halts _ (exec_ret_of_empty s empty) (.ret empty)
  case skp x =>
    rcases Nat.lt_or_ge 15 (s.getV x).toNat with big | hx
    · exact halts _ (exec_skp_of_gt s x big) (.skp x big)
    · exact completes _ (exec_skp_of_le s x hx) (by rw [State.skipIf_eq])
  case sknp x =>
    rcases Nat.lt_or_ge 15 (s.getV x).toNat with big | hx
    · exact halts _ (exec_sknp_of_gt s x big) (.sknp x big)
    · exact completes _ (exec_sknp_of_le s x hx) (by rw [State.skipIf_eq])
  case ldB x =>
    rcases s.storeBytes_cases (decimalDigits (s.getV x)) (show 3 ≤ 4096 by decide) with
      ⟨u, hu, honly, -, -⟩ | ⟨a, ha, policy, low⟩
    · exact completes _ (exec_ldB_of_ok s hu) (by rw [honly.frame])
    · exact halts _ (exec_ldB_of_error s ha) (.ldB x policy low)
  case storeRegs x =>
    rcases s.storeBytes_cases (regsThrough x s) (by rw [regsThrough_length]; omega) with
      ⟨u, hu, honly, -, -⟩ | ⟨a, ha, policy, low⟩
    · exact completes _ (exec_storeRegs_of_ok s hu) (by rw [State.advanceI_eq, honly.frame])
    · rw [regsThrough_length] at low
      exact halts _ (exec_storeRegs_of_error s ha) (.storeRegs x policy low)
  case ldVxK =>
    cases h
    cases hc
  all_goals exact completes t h (exec_mode_of_footprint h rfl)

/-! ### The obligations -/

/-- Settles O28, cause by cause. -/
theorem fatalCausesAreExactlyTheTable : Obligations.FatalCausesAreExactlyTheTable := by
  intro ins s t c h hl hc
  obtain ⟨rfl, hfatal⟩ := fatalCause_of_exec_halted h hl hc
  refine ⟨unchangedOutside_setMode _ rfl, ?_⟩
  cases hfatal with
  | call nnn full => exact .inl ⟨nnn, rfl, full, rfl⟩
  | ret empty => exact .inr (.inl ⟨rfl, empty, rfl⟩)
  | skp x big => exact .inr (.inr (.inl ⟨x, .inl rfl, big, rfl⟩))
  | sknp x big => exact .inr (.inr (.inl ⟨x, .inr rfl, big, rfl⟩))
  | ldB x policy low => exact .inr (.inr (.inr ⟨x, 3, _, .inl ⟨rfl, rfl⟩, policy, low, rfl⟩))
  | storeRegs x policy low => exact .inr (.inr (.inr ⟨x, x.val + 1, _, .inr ⟨rfl, rfl⟩, policy, low, rfl⟩))

/-- Settles O7: the state written out is `State.fetched` with the record appended. -/
theorem unknownOpcodeIsLoggedNoOp : Obligations.UnknownOpcodeIsLoggedNoOp :=
  fun _ _ hready hd => step_of_unknown hready hd

/-- Settles O8, by the first of the three ways a cycle goes. -/
theorem oddPcFaultsUnderPolicy : Obligations.OddPcFaultsUnderPolicy := by
  intro s rest hr hn hp ho
  have hstep := step_cycle hn hr
  rw [if_pos ⟨hp, ho⟩] at hstep
  exact ⟨_, hstep, rfl, rfl⟩

/-- Settles O22: `fault_cause` is the code of the cause MODE holds, and no code is 0. -/
theorem faultOutputsReportCause : Obligations.FaultOutputsReportCause := fun s =>
  ⟨faultAsserted_iff s, fun _ => faultCause_of_halted, fun _ => faultCause_of_halted, fun _ => faultCause_of_halted,
    fun _ _ => faultCause_of_halted, fun _ _ => faultCause_of_halted, fun _ => faultCause_of_halted,
    faultCause_of_not_halted⟩

/-- Settles O24: the refused load leaves a Halted machine, which has no step. -/
theorem oversizeImageIsRefused : Obligations.OversizeImageIsRefused := by
  intro p rom hlen
  have hmode := mode_boot_of_oversize p hlen
  exact ⟨hmode, step_of_halted hmode⟩

/-- Settles O55: the check of SKP and SKNP fails, so only MODE is written. -/
theorem keyIndexAboveFifteenIsFatal : Obligations.KeyIndexAboveFifteenIsFatal := by
  rintro x s ins (rfl | rfl) hx
  · exact ⟨_, exec_skp_of_gt s x hx, rfl, unchangedOutside_setMode _ rfl⟩
  · exact ⟨_, exec_sknp_of_gt s x hx, rfl, unchangedOutside_setMode _ rfl⟩

end Sys2Proof.Machine
end

section
/-! PROOFS. The statements of 70_reset_and_hazards.md: what the reset state holds, field by field, and that the first cycle
after the program load fetches the first two bytes of the image. -/

namespace Sys2Proof.Machine

/-! ### The reset contents of memory -/

/-- Glyph k of the font occupies the five bytes from 5k (20_memory.md R54). -/
theorem Memory.resetByte_glyph (font : Font) {k j : Nat} (hk : k < 16) (hj : j < 5) :
    Memory.resetByte font (5 * k + j) = font[k][j] := by
  have glyph : (5 * k + j) / 5 = k := by omega
  have row : (5 * k + j) % 5 = j := by omega
  rw [Memory.resetByte, dif_pos (by omega)]
  simp only [glyph, row]

/-- Above the font memory is zero at reset (70_reset_and_hazards.md R241). -/
theorem Memory.resetByte_of_le (font : Font) {a : Nat} (h : 80 ≤ a) : Memory.resetByte font a = 0 :=
  dif_neg (Nat.not_lt.mpr h)

/-! ### The reset registers -/

theorem State.getV_resetWith_of_zero {p : Params} (h : p.resetRegs = .zero) (j : RegIdx) :
    (State.resetWith p).getV j = 0 := by
  have hv : resetRegisters p = Vector.replicate 16 0 := by rw [resetRegisters, h]
  show (resetRegisters p)[j.val] = 0
  rw [hv, Vector.getElem_replicate]

theorem resetIndex_of_zero {p : Params} (h : p.resetRegs = .zero) : resetIndex p = 0 := by
  rw [resetIndex, h]

/-! ### The loaded machine -/

/-- A load that fits changes nothing but memory of the reset state (20_memory.md R66). -/
theorem State.boot_onlyMemory (p : Params) {rom : List Byte} (h : rom.length ≤ 3584) :
    OnlyMemory (State.resetWith p) (State.boot p rom) := by
  rw [State.boot_of_fits p rom h]
  obtain ⟨-, -, only⟩ := (State.resetWith p).placeBytes_spec rom 0x200 (Nat.le_refl _) (by omega)
  exact only

/-- The bytes of a load that fits stand from 0x200 upwards (20_memory.md R66). -/
theorem State.memRead_boot (p : Params) {rom : List Byte} (h : rom.length ≤ 3584) {k : Nat} (hk : k < rom.length) :
    (State.boot p rom).memRead (0x200 + k) = rom[k] := by
  rw [State.boot_of_fits p rom h]
  obtain ⟨here, -, -⟩ := (State.resetWith p).placeBytes_spec rom 0x200 (Nat.le_refl _) (by omega)
  exact here k hk

theorem State.pc_boot (p : Params) {rom : List Byte} (h : rom.length ≤ 3584) : (State.boot p rom).pc = 0x200 := by
  rw [(State.boot_onlyMemory p h).frame]
  rfl

/-- The loaded machine fetches at 0x200, which is even, so no P_ODD_PC stops its first cycle (70_reset_and_hazards.md R243,
R248). -/
theorem State.boot_readyToFetch (p : Params) {rom : List Byte} (h : rom.length ≤ 3584) :
    readyToFetch (State.boot p rom) [] := by
  have even : (State.boot p rom).pc.toNat % 2 = 0 := by
    rw [State.pc_boot p h]
    decide
  refine ⟨?_, .inl ⟨?_, rfl⟩, fun _ => even⟩
  all_goals rw [(State.boot_onlyMemory p h).frame]; rfl

/-- The first opcode fetched is the first two bytes of the image, the first as the high byte (20_memory.md R56). -/
theorem fetchedOpcode_boot (p : Params) {hi lo : Byte} {rom : List Byte} (h : (hi :: lo :: rom).length ≤ 3584) :
    fetchedOpcode (State.boot p (hi :: lo :: rom)) = hi ++ lo := by
  rw [fetchedOpcode, State.pc_boot p h]
  exact congrArg₂ _ (State.memRead_boot p h (k := 0) (by simp)) (State.memRead_boot p h (k := 1) (by simp))

/-- The loaded machine's first instruction executes with PC = 0x202, nothing else changed: FB_DIRTY is 0 and no move is
listed already. -/
theorem State.fetched_boot (p : Params) {rom : List Byte} (h : rom.length ≤ 3584) :
    (State.boot p rom).fetched [] = { State.boot p rom with pc := 0x202 } := by
  rw [(State.boot_onlyMemory p h).frame]
  rfl

/-! ### The obligations -/

/-- Settles O20: memory reads as its reset contents, which hold the glyphs and zeros; the other fields are `resetWith`'s. -/
theorem resetState : Obligations.ResetState := by
  intro p
  refine ⟨rfl, rfl, rfl, rfl, rfl, fun k j hk hj => ?_, fun a hlow hlt => ?_, Framebuffer.pixel_clear⟩
  · rw [State.memRead_resetWith p (by omega), Memory.resetByte_glyph p.font hk hj]
  · rw [State.memRead_resetWith p hlt, Memory.resetByte_of_le p.font hlow]

/-- Settles O25: the loaded machine is ready to fetch, and its first opcode is the image's first two bytes. -/
theorem firstInstructionIsFirstTwoBytes : Obligations.FirstInstructionIsFirstTwoBytes := by
  intro p hi lo rom ins hrom hd
  have hfits : (hi :: lo :: rom).length ≤ 3584 := by
    rw [List.length_cons, List.length_cons]
    omega
  have hparams : (State.boot p (hi :: lo :: rom)).params = p := (State.boot_onlyMemory p hfits).params
  rw [step_of_decode (State.boot_readyToFetch p hfits) (by rw [hparams, fetchedOpcode_boot p hfits, hd]),
    State.fetched_boot p hfits]

/-- Settles O16: no cell is listed at reset, and I has 12 bits under either P_RESET_REGS. -/
theorem resetMeetsInv : Obligations.ResetMeetsInv := fun p =>
  ⟨State.resetWith_inv p, State.resetWith_lowIntact p⟩

/-- Settles O21: V and I by P_RESET_REGS, the hidden and output state by `resetWith`. (The model's `resetRegisters` has the
obligation's own name.) -/
theorem resetRegisters_spec : Obligations.ResetRegisters := fun p =>
  ⟨fun h => ⟨State.getV_resetWith_of_zero h, resetIndex_of_zero h⟩, resetIndex_le p, rfl, rfl, rfl, rfl, rfl⟩

end Sys2Proof.Machine
end
